-- ==== Sys2Proof/Config.lean ====
section
/-! DEFINITION. The implementation parameters of spec/00_scope.md R5. All but one are fixed by the spec and stand in the
types: BYTE_BITS and WORD_BITS in `Byte` and `Word`, OP_BITS in `Request.op`, LEN_BITS in `Instr.WellFormed` and the frame of
Decode.lean, GROUP_BYTES and BYTE_ORDER in `group` and `splitWord` of Machine/Operands.lean, VEC_REMAINDER_POLICY (reject) in
the meaning of decode_i32_vector. The one that R5 leaves OPEN is a constant without a body: nothing in Lean can
evaluate it, so whatever is proved holds for every instantiation. -/

namespace Sys2Proof.Config

/-- How far MAX_IN_BYTES lies above its least value 4, a number in 0 .. 2^32 - 5 (R5, decision D6).
DESIGN CHOICE of form, log entry 1; safe. -/
opaque capacityAboveFour : Fin 4294967292

/-- MAX_IN_BYTES (R5, R19): "a natural number, at least 4, fixed at instantiation; it may be 2^32 - 1". -/
def maxInBytes : Nat := capacityAboveFour.val + 4

/-- MAX_VEC_COUNT = floor(MAX_IN_BYTES / 4) (R5). -/
def maxVecCount : Nat := maxInBytes / 4

end Sys2Proof.Config
end

