-- ==== Sys2Proof/Word.lean ====
section
/-! DEFINITION. The two cell widths of the codec (spec/00_scope.md R5: BYTE_BITS = 8, WORD_BITS = 32). -/

namespace Sys2Proof

/-- One element of a ByteBuffer or a ResultBuffer: 8 bits, read as 0..255 (R5, R40). -/
abbrev Byte := BitVec 8

/-- The 32 bits of an Int32Value (R5). Its integer is `s32` of it (R7, Machine/Operands.lean). -/
abbrev Word := BitVec 32

end Sys2Proof
end

