-- ==== Sys2Proof/Syntax.lean ====
section
/-! DEFINITION. The codec's requests, the operations they select, and the assembler's lines (spec/30_encoding.md). -/

namespace Sys2Proof

/-- One request REQ (R36). Its LEN field is the length of `buf`, so a request whose BUF length differs from LEN cannot
be written down (R39). -/
structure Request where
  /-- OP[1:0], the selector (R37). -/
  op  : BitVec 2
  /-- BUF, the input buffer IB; index 0 is the first byte the host supplies (R6, R22). -/
  buf : List Byte
  /-- VAL[31:0], a two's-complement integer (R41). -/
  val : Word
deriving DecidableEq, Repr

/-- LEN, the number of bytes of BUF (R36, R39). -/
def Request.len (r : Request) : Nat := r.buf.length

/-- The operations of spec/opcode_table.json, one constructor per row. Each carries every operand field of its request,
also the ones the operation ignores (R42): what is ignored is a matter of meaning, not of encoding. -/
inductive Instr where
  /-- OP = 00 (R48). -/
  | decodeI32 (buf : List Byte) (val : Word)
  /-- OP = 01 (R49). -/
  | decodeI32Vector (buf : List Byte) (val : Word)
  /-- OP = 10 (R53). -/
  | encodeI32 (buf : List Byte) (val : Word)
  /-- OP = 11, which spells no operation but is accepted (R38). -/
  | reserved (buf : List Byte) (val : Word)
deriving DecidableEq, Repr

/-- The BUF of the request that spells the instruction. -/
def Instr.buf : Instr → List Byte
  | .decodeI32 b _ => b
  | .decodeI32Vector b _ => b
  | .encodeI32 b _ => b
  | .reserved b _ => b

/-- The VAL of the request that spells the instruction. -/
def Instr.val : Instr → Word
  | .decodeI32 _ v => v
  | .decodeI32Vector _ v => v
  | .encodeI32 _ v => v
  | .reserved _ v => v

/-- Why a `Request` is none of the spec's requests. -/
inductive DecodeReject where
  /-- BUF has 2^32 bytes or more, which LEN[31:0] cannot count (R36, R39). -/
  | lenTooLarge
deriving DecidableEq, Repr

/-- An integer literal of the assembler (R45). -/
inductive IntLiteral where
  /-- A decimal integer. -/
  | decimal (v : Int)
  /-- `0x` and 8 hex digits, meaning s32 of that pattern. -/
  | pattern (w : Word)
deriving DecidableEq, Repr

/-- One line of the assembler (R45). -/
inductive AsmLine where
  | decodeI32 (bytes : List Byte)
  | decodeI32Vector (bytes : List Byte)
  | encodeI32 (v : IntLiteral)
  | reserved (bytes : List Byte) (v : IntLiteral)
  | reset
deriving DecidableEq, Repr

end Sys2Proof
end

