-- ==== Sys2Proof/WellFormed.lean ====
section
/-! DEFINITION. Which terms of Syntax.lean the spec's fields can hold. -/

namespace Sys2Proof

/-- LEN is an unsigned 32-bit count, so BUF has at most 2^32 - 1 bytes (R36, R39). The other fields hold exactly what
their types hold. -/
abbrev Instr.WellFormed (i : Instr) : Prop := i.buf.length < 2 ^ 32

/-- The same check on a request (R39). -/
abbrev Request.WellFormed (r : Request) : Prop := r.len < 2 ^ 32

/-- A decimal literal lies in -2^31 .. 2^31 - 1 (R45); a pattern always does. -/
def IntLiteral.wellFormed : IntLiteral → Bool
  | .decimal v => decide (-2 ^ 31 ≤ v ∧ v < 2 ^ 31)
  | .pattern _ => true

end Sys2Proof
end

