-- ==== Sys2Proof/Decode.lean ====
section
/-! DEFINITION. The decoder and encoder of requests (spec/30_encoding.md), and the layout of a request as one row of bits. -/

namespace Sys2Proof

/-- The selector map (R37): every value of OP selects exactly one row, so 11 is what the last line is for. -/
def select (op : BitVec 2) (buf : List Byte) (val : Word) : Instr :=
  if op = 0b00#2 then .decodeI32 buf val
  else if op = 0b01#2 then .decodeI32Vector buf val
  else if op = 0b10#2 then .encodeI32 buf val
  else .reserved buf val

/-- The decoder of requests, total on the spec's requests (R37). What R39 says cannot be presented (a BUF that LEN
cannot count) is rejected by name; log entry 7, DEDUCED, safe. -/
def decode (r : Request) : Except DecodeReject Instr :=
  if r.len < 2 ^ 32 then .ok (select r.op r.buf r.val) else .error .lenTooLarge

/-- The OP of an instruction (R37, opcode_table.json). -/
def opBits : Instr → BitVec 2
  | .decodeI32 _ _ => 0b00#2
  | .decodeI32Vector _ _ => 0b01#2
  | .encodeI32 _ _ => 0b10#2
  | .reserved _ _ => 0b11#2

/-- The request that spells an instruction (R36, R37). -/
def encode (i : Instr) : Request := { op := opBits i, buf := i.buf, val := i.val }

/-! ## A request as one row of bits

The spec gives the fields and their widths, and a fixed part of 66 bits OP, LEN, VAL before a variable part BUF (R43); it
gives no bit numbers but OP's 1:0 (opcode_table.json). DESIGN CHOICE, log entry 6: bit 0 first, OP is bits 1:0, LEN bits
33:2, VAL bits 65:34, and byte i of BUF bits 73+8i : 66+8i. Only `decodeTableWord` and `State.withFetchWord` rest on it. -/

/-- The first `n` bytes of a row of bits, and the bits after them. -/
def takeBytes : Nat → Nat → List Byte × Nat
  | 0, w => ([], w)
  | n + 1, w =>
    let rest := takeBytes n (w / 256)
    (BitVec.ofNat 8 w :: rest.1, rest.2)

/-- Bytes as a row of bits, the first byte lowest. -/
def bytesBits : List Byte → Nat
  | [] => 0
  | b :: bs => b.toNat + 256 * bytesBits bs

/-- The request at the low end of a row of bits, and the bits after it. LEN alone tells how long it is (R43). -/
def takeRequest (w : Nat) : Request × Nat :=
  let body := takeBytes (w / 2 ^ 2 % 2 ^ 32) (w / 2 ^ 66)
  ({ op := BitVec.ofNat 2 w, buf := body.1, val := BitVec.ofNat 32 (w / 2 ^ 34) }, body.2)

/-- A request as a row of bits. -/
def requestBits (r : Request) : Nat :=
  r.op.toNat + 2 ^ 2 * r.len + 2 ^ 34 * r.val.toNat + 2 ^ 66 * bytesBits r.buf

/-- How many bits a request's row has: its fixed part, 66 bits, and 8 for each byte of BUF (R43). -/
def Request.bitLength (r : Request) : Nat := 66 + 8 * r.len

/-- An instruction as a row of bits. -/
def encodeBits (i : Instr) : Nat := requestBits (encode i)

/-- The instruction at the low end of a row of bits, and the bits after it. -/
def decodeBits (w : Nat) : Except DecodeReject (Instr × Nat) :=
  match decode (takeRequest w).1 with
  | .ok i => .ok (i, (takeRequest w).2)
  | .error e => .error e

/-- The request whose lowest `nbits` bits are those of `w` and whose other bits are 0. -/
def tableRequest (nbits w : Nat) : Request := (takeRequest (w % 2 ^ nbits)).1

/-- The instruction the decoder reads from an opcode-table word. -/
def decodeTableWord (nbits w : Nat) : Option Instr :=
  match decode (tableRequest nbits w) with
  | .ok i => some i
  | .error _ => none

end Sys2Proof
end

