-- ==== Sys2Proof/Machine/State.lean ====
section
/-! DEFINITION. The codec's state: the response latch and nothing else (spec/10_state.md R11), beside the moves the host has
yet to make. -/

namespace Sys2Proof.Machine

/-- The code of an `Err` response (R16, R59). Its number is `ErrCode.status` in Machine/Flags.lean. -/
inductive ErrCode where
  /-- The source's InvalidLength: "buffer length not compatible with the expected integer width" (R59). -/
  | invalidLength
  /-- A reserved selector (R38, R59). -/
  | illegalOp
deriving DecidableEq, Repr

/-- The 4 bytes of a ResultBuffer, the byte space OB, indices 0..3 (R22, R24). -/
structure ByteQuad where
  b0 : Byte
  b1 : Byte
  b2 : Byte
  b3 : Byte
deriving DecidableEq, Repr

/-- The payload of an `Ok` response; each kind holds only its own fields (R17). -/
inductive Payload where
  /-- `I32(OUT_I32)`: the 32 bits, read as s32 of them. -/
  | i32 (outI32 : Word)
  /-- `VEC(OUT_COUNT, OUT_VEC)`: the count and the elements, 32 bits each. -/
  | vec (outCount : Nat) (outVec : List Word)
  /-- `BYTES(OUT_BYTES)`. -/
  | bytes (outBytes : ByteQuad)
deriving DecidableEq, Repr

/-- What RSP holds while a response is held (R15). An `Err` response has no content but its code. -/
inductive Response where
  | ok (p : Payload)
  | err (c : ErrCode)
deriving DecidableEq, Repr

/-- The fields the host can read, all of them read-only (R19). MAX_IN_BYTES has no host access. -/
inductive Field where
  | rspValid
  | status
  | outI32
  | outCount
  | outVec (k : Nat)
  | outByte (j : Fin 4)
deriving DecidableEq, Repr

/-- What reading a field gives, in the type R19 gives the field. -/
inductive FieldValue where
  | bit (b : BitVec 1)
  | status (c : BitVec 2)
  | integer (v : Int)
  | count (n : Nat)
  | byte (b : Byte)
deriving DecidableEq, Repr

/-- What the host may do (60_exceptions.md R72). A request and a reset are the events of a run (R76); a read is the
host's read of the latch, which changes nothing (log entry 8, DEDUCED). -/
inductive HostMove where
  | request (r : Request)
  | read (f : Field)
  | reset
deriving DecidableEq, Repr

/-- The codec with the host in front of it. R11: the codec's state is exactly RSP_VALID and RSP. -/
structure State where
  /-- RSP_VALID, 1 bit (R14). -/
  rspValid : BitVec 1
  /-- RSP; `none` exactly when RSP_VALID = 0 (R11, R15), which `State.LatchWf` of Safety.lean says. -/
  rsp : Option Response
  /-- THE MODEL'S OWN: the moves the host has yet to make, the next one first (log entry 2, DESIGN CHOICE). -/
  pending : List HostMove
deriving DecidableEq, Repr

/-- The machine right after reset (R21, R73). That no move of the host is pending is the model's choice (log entry 2). -/
def State.reset : State := { rspValid := 0#1, rsp := none, pending := [] }

/-- Why a run cannot go on. -/
inductive Fault where
  /-- A decode request with LEN > MAX_IN_BYTES has no step; the run is stuck (R25, R76). Raised by decode_i32 and
  decode_i32_vector. Safe: nothing is claimed to happen (log entry 5). -/
  | overCapacity
  /-- The host read a field that has no value (R17: the model must fault). Raised by a read move. Safe. -/
  | noValue (f : Field)
deriving DecidableEq, Repr

/-- Why a move is not performed. -/
inductive Refusal where
  /-- An instruction without a meaning yet; no arm of exec answers it. Safe. -/
  | notModelled (mnemonic : String)
  /-- The host's term is no request of the spec's (R39). Raised by the decoder. Safe (log entry 7). -/
  | notARequest (why : DecodeReject)
deriving DecidableEq, Repr

end Sys2Proof.Machine
end

