-- ==== Sys2Proof/Machine/Flags.lean ====
section
/-! DEFINITION. STATUS, the codec's only flag-like output (spec/10_state.md R16). It is not stored beside RSP: it is read
through RSP (log entry 10). -/

namespace Sys2Proof.Machine

/-- The number of an error code (R16, R59). -/
def errStatus : ErrCode → BitVec 2
  | .invalidLength => 1#2
  | .illegalOp => 2#2

/-- STATUS of a held response (R16). -/
def responseStatus : Response → BitVec 2
  | .ok _ => 0#2
  | .err c => errStatus c

end Sys2Proof.Machine
end

