-- ==== Sys2Proof/Machine/Operands.lean ====
section
/-! DEFINITION. Operands and the byte order: the integer of 32 bits, the buffer's bytes and groups, the bytes of a value
(spec/00_scope.md R7, R8; 20_memory.md R22 to R28; 40_decode.md R47; 41_encode.md R53). -/

namespace Sys2Proof.Machine

/-- The integer of a 32-bit pattern in two's complement (R7). -/
def s32 (u : Word) : Int :=
  if u.toNat < 2 ^ 31 then (u.toNat : Int) else (u.toNat : Int) - 2 ^ 32

/-- The 32-bit pattern of an integer, `v mod 2^32` (R7). -/
def u32 (v : Int) : Word := BitVec.ofNat 32 (v % 2 ^ 32).toNat

/-- BUF[i], for i below LEN (R8). The bound is an argument, so no read falls outside IB (R23). -/
def bufRead (buf : List Byte) (i : Nat) (h : i < buf.length) : Byte := buf[i]

/-- Group(k), for 4k+3 < LEN (R47): bytes 4k .. 4k+3, the first least significant (R26). -/
def group (buf : List Byte) (k : Nat) (h : 4 * k + 3 < buf.length) : Word :=
  bufRead buf (4 * k + 3) h ++ bufRead buf (4 * k + 2) (by omega) ++ bufRead buf (4 * k + 1) (by omega)
    ++ bufRead buf (4 * k) (by omega)

/-- The groups 0 .. n-1, in the input's order (R18, R49). -/
def groups (buf : List Byte) (n : Nat) (h : 4 * n ≤ buf.length) : List Word :=
  List.ofFn fun k : Fin n => group buf k.val (by omega)

/-- The 4 bytes of a pattern, byte j being bits 8j+7 : 8j (R26, R53). -/
def splitWord (u : Word) : ByteQuad :=
  { b0 := u.extractLsb' 0 8
    b1 := u.extractLsb' 8 8
    b2 := u.extractLsb' 16 8
    b3 := u.extractLsb' 24 8 }

/-- Byte j of OB (R22). -/
def quadByte (q : ByteQuad) : Fin 4 → Byte
  | 0 => q.b0
  | 1 => q.b1
  | 2 => q.b2
  | 3 => q.b3

/-- OB as a byte sequence, index 0 first (R6): what a host hands back as a 4-byte BUF. -/
def quadList (q : ByteQuad) : List Byte := [q.b0, q.b1, q.b2, q.b3]

end Sys2Proof.Machine
end

