-- ==== Sys2Proof/Machine/Ops.lean ====
section
/-! DEFINITION. The operations on the latch that the meanings share (spec/00_scope.md R8): respond, raise, the capacity
check, the host's reads, reset. The codec never traps (60_exceptions.md R58, R62): `raise` is all that an error does, and
there is no return from one (R63). -/

namespace Sys2Proof.Machine

/-- What one step answers. -/
abbrev Result := Host.Outcome State Fault Refusal

/-- Writes RSP_VALID and RSP together, and nothing else (R8, R29). -/
def writeLatch (x : Response) (s : State) : State := { s with rspValid := 1#1, rsp := some x }

/-- `respond Ok(p)` (R8). -/
def respond (p : Payload) (s : State) : State := writeLatch (.ok p) s

/-- `raise InvalidLength()` and `raise IllegalOp()` (R8, R58): the code is the response, and nothing else is written. -/
def raise (c : ErrCode) (s : State) : State := writeLatch (.err c) s

/-- The capacity check (R25, R61 step 2): a decode request with LEN > MAX_IN_BYTES has no step. -/
def ifWithin (cap : Nat) (buf : List Byte) (after : State) : Result :=
  if buf.length ≤ cap then .next after else .fault .overCapacity

/-- Reset (70_reset_and_hazards.md R73): RSP_VALID <- 0 and RSP <- none. MAX_IN_BYTES is no state, so it keeps its value. -/
def resetLatch (s : State) : State := { s with rspValid := 0#1, rsp := none }

/-- The fields of a payload, each kind only its own; every other field has no value (R17). -/
def payloadField : Payload → Field → Option FieldValue
  | .i32 w, .outI32 => some (.integer (s32 w))
  | .vec n _, .outCount => some (.count n)
  | .vec n e, .outVec k => if k < n then e[k]?.map fun w => .integer (s32 w) else none
  | .bytes q, .outByte j => some (.byte (quadByte q j))
  | _, _ => none

/-- The fields read through a held response: STATUS, and for `Ok` its payload's (R16, R17). -/
def responseField : Response → Field → Option FieldValue
  | x, .status => some (.status (responseStatus x))
  | .ok p, f => payloadField p f
  | .err _, _ => none

/-- The value a field of the latch has, if it has one. RSP_VALID always has one; every other field is read only while
RSP_VALID = 1 (R16, R19, R21). -/
def fieldValue (s : State) : Field → Option FieldValue
  | .rspValid => some (.bit s.rspValid)
  | f => if s.rspValid = 1#1 then s.rsp.bind fun x => responseField x f else none

/-- The host's read of a field: a field that has no value faults (R17). -/
def readField (f : Field) (s : State) : Except Fault FieldValue :=
  match fieldValue s f with
  | some v => .ok v
  | none => .error (.noValue f)

end Sys2Proof.Machine
end

