-- ==== Sys2Proof/Machine/DecodeFamily.lean ====
section
/-! DEFINITION. The decode operations (spec/40_decode.md). MAX_IN_BYTES "is a parameter of the step relation" (10_state.md
R11), so each operation is written for any capacity and its meaning is the one at MAX_IN_BYTES. -/

namespace Sys2Proof.Machine

/-- The response of decode_i32 to a buffer (R48): the length is checked before any byte is read. -/
def decodeI32Response (buf : List Byte) : Response :=
  if h : buf.length < 4 then .err .invalidLength else .ok (.i32 (group buf 0 (by omega)))

/-- The response of decode_i32_vector to a buffer (R49): a remainder is rejected, with no element produced (R51). -/
def decodeI32VectorResponse (buf : List Byte) : Response :=
  if buf.length % 4 ≠ 0 then .err .invalidLength
  else .ok (.vec (buf.length / 4) (groups buf (buf.length / 4) (by omega)))

/-- An accepted request's response goes to the latch: `respond` for Ok, `raise` for Err (R8). -/
def deliver : Response → State → State
  | .ok p, s => respond p s
  | .err c, s => raise c s

/-- decode_i32 at a given capacity: capacity first, then length (R61). -/
def decodeI32Within (cap : Nat) (buf : List Byte) (s : State) : Result :=
  ifWithin cap buf (deliver (decodeI32Response buf) s)

/-- decode_i32_vector at a given capacity: capacity first, then length (R61). -/
def decodeI32VectorWithin (cap : Nat) (buf : List Byte) (s : State) : Result :=
  ifWithin cap buf (deliver (decodeI32VectorResponse buf) s)

/-- `decode_i32` (R48). VAL is ignored (R42). -/
def execDecodeI32 (buf : List Byte) (_val : Word) (s : State) : Result :=
  decodeI32Within Config.maxInBytes buf s

/-- `decode_i32_vector` (R49). VAL is ignored (R42). -/
def execDecodeI32Vector (buf : List Byte) (_val : Word) (s : State) : Result :=
  decodeI32VectorWithin Config.maxInBytes buf s

end Sys2Proof.Machine
end

