-- ==== Sys2Proof/Machine/EncodeFamily.lean ====
section
/-! DEFINITION. The encode operation (spec/41_encode.md). -/

namespace Sys2Proof.Machine

/-- `encode_i32` (R53): the bytes of u32(VAL), least significant first, where VAL is the integer its 32 bits denote
(R41). LEN and BUF are ignored and the capacity check does not apply (R25, R42). -/
def execEncodeI32 (_buf : List Byte) (val : Word) (s : State) : Result :=
  .next (respond (.bytes (splitWord (u32 (s32 val)))) s)

end Sys2Proof.Machine
end

