-- ==== Sys2Proof/Machine/ReservedFamily.lean ====
section
/-! DEFINITION. The reserved selector (spec/30_encoding.md R38). -/

namespace Sys2Proof.Machine

/-- OP = 11 is accepted and raises ILLEGAL_OP; LEN, BUF and VAL are ignored, so the capacity check does not apply
(R38, R42, R61). -/
def execReserved (_buf : List Byte) (_val : Word) (s : State) : Result :=
  .next (raise .illegalOp s)

end Sys2Proof.Machine
end

