-- ==== Sys2Proof/Machine/Dispatch.lean ====
section
/-! DEFINITION. The meaning of every instruction, one arm per row of spec/opcode_table.json. -/

namespace Sys2Proof.Machine

/-- What an accepted request does (spec/60_exceptions.md R61). -/
def exec (i : Instr) (s : State) : Host.Outcome State Fault Refusal :=
  match i with
  | .decodeI32 buf val => Sys2Proof.Machine.execDecodeI32 buf val s
  | .decodeI32Vector buf val => Sys2Proof.Machine.execDecodeI32Vector buf val s
  | .encodeI32 buf val => Sys2Proof.Machine.execEncodeI32 buf val s
  | .reserved buf val => Sys2Proof.Machine.execReserved buf val s

end Sys2Proof.Machine
end

