-- ==== Sys2Proof/Machine/HostMoves.lean ====
section
/-! DEFINITION. What each move of the host does to the codec (spec/60_exceptions.md R72; 70_reset_and_hazards.md R73). -/

namespace Sys2Proof.Machine

/-- The host's next move, and the state with that move taken (R33: in the order given, one at a time). -/
def fetchMove (s : State) : Option (HostMove × State) :=
  match s.pending with
  | [] => none
  | m :: rest => some (m, { s with pending := rest })

/-- A request is decoded and performed (R36, R37). -/
def performRequest (r : Request) (s : State) : Result :=
  match decode r with
  | .ok i => exec i s
  | .error why => .refused (.notARequest why)

/-- A read has no side effect, and faults on a field that has no value (R17, R30). -/
def performRead (f : Field) (s : State) : Result :=
  match readField f s with
  | .ok _ => .next s
  | .error e => .fault e

/-- One move of the host. -/
def performMove (m : HostMove) (s : State) : Result :=
  match m with
  | .request r => performRequest r s
  | .read f => performRead f s
  | .reset => .next (resetLatch s)

/-- The codec between two moves: idle, it holds its latch (R71; log entry 4). -/
def idle (s : State) : Result := .next s

/-- The host presents one request before the moves it has yet to make. -/
def presentRequest (r : Request) (s : State) : State := { s with pending := .request r :: s.pending }

end Sys2Proof.Machine
end

