-- ==== Sys2Proof/Machine/Step.lean ====
section
/-! DEFINITION. One step of the machine: the host's next move, performed as one atomic step (spec/10_state.md R10, 92 D2). -/

namespace Sys2Proof.Machine

/-- One step: take the host's next move and perform it; with no move to take the codec is idle (R71). -/
def step (s : State) : Host.Outcome State Fault Refusal :=
  match fetchMove s with
  | some (m, s') => performMove m s'
  | none => idle s

/-- The state whose next step performs the request of an opcode-table word: the host presents that request. -/
def State.withFetchWord (s : State) (nbits w : Nat) : State := presentRequest (tableRequest nbits w) s

end Sys2Proof.Machine
end

