-- ==== Sys2Proof/Machine/Assembler.lean ====
section
/-! DEFINITION. The assembler (spec/30_encoding.md R45): what a line stands for, and how a line is read from its characters.
There is no pseudo-instruction (R46). -/

namespace Sys2Proof.Machine

/-- The 32 bits of a literal (R45). -/
def literalWord : IntLiteral → Word
  | .decimal v => u32 v
  | .pattern w => w

/-- A literal outside -2^31 .. 2^31 - 1 cannot be presented (R41, R45). -/
def literal? (v : IntLiteral) : Option Word := if v.wellFormed then some (literalWord v) else none

/-- The request a line of the assembler stands for, with LEN = number of bytes listed and the ignored fields empty (R45). -/
def lineRequest : AsmLine → Option Request
  | .decodeI32 bytes => some { op := 0b00#2, buf := bytes, val := 0 }
  | .decodeI32Vector bytes => some { op := 0b01#2, buf := bytes, val := 0 }
  | .encodeI32 v => (literal? v).map fun w => { op := 0b10#2, buf := [], val := w }
  | .reserved bytes v => (literal? v).map fun w => { op := 0b11#2, buf := bytes, val := w }
  | .reset => none

/-- The host's move a line stands for; a line that is no request and no reset is rejected (R39, R45). -/
def assemble : AsmLine → Option HostMove
  | .reset => some .reset
  | l => (lineRequest l).bind fun r => if r.len < 2 ^ 32 then some (.request r) else none

/-! ## Reading a line from its characters

R45 lets a byte be two hexadecimal digits, "or decimal in a list written `[1,0,0,0]`". Where the two readings differ the spec
names none: two characters are read as hexadecimal, one or three as decimal (DESIGN CHOICE, log entry 11). -/

/-- The words and marks of a line. -/
inductive Token where
  | word (cs : List Char)
  | lbracket
  | rbracket
  | comma
deriving DecidableEq, Repr

/-- The word read so far (`acc`, last character first), if any. -/
def endWord (acc : List Char) : List Token := if acc = [] then [] else [.word acc.reverse]

/-- The tokens of a line; `;` starts a comment (R45). -/
def tokens (acc : List Char) : List Char → List Token
  | [] => endWord acc
  | c :: cs =>
    if c = ';' then endWord acc
    else if c = ' ' then endWord acc ++ tokens [] cs
    else if c = '[' then endWord acc ++ .lbracket :: tokens [] cs
    else if c = ']' then endWord acc ++ .rbracket :: tokens [] cs
    else if c = ',' then endWord acc ++ .comma :: tokens [] cs
    else tokens (c :: acc) cs

/-- The sixteen digits of R6's bytes (`FF`), each at the place that is its value. -/
def hexAlphabet : List Char := "0123456789ABCDEF".toList

/-- The same digits with small letters, which the spec does not forbid (log entry 11). -/
def hexAlphabetSmall : List Char := "0123456789abcdef".toList

/-- The value of one hexadecimal digit: its place in the alphabet. -/
def hexDigit (c : Char) : Option Nat := (hexAlphabet.idxOf? c).or (hexAlphabetSmall.idxOf? c)

/-- Digits in a base, after those already read as `acc`. -/
def digits (base acc : Nat) : List Char → Option Nat
  | [] => some acc
  | c :: cs => (hexDigit c).bind fun d => if d < base then digits base (base * acc + d) cs else none

/-- One byte of a list (R6, R45). -/
def byteLiteral (cs : List Char) : Option Byte :=
  if cs.length = 2 then (digits 16 0 cs).map (BitVec.ofNat 8)
  else if cs.length = 1 ∨ cs.length = 3 then
    (digits 10 0 cs).bind fun n => if n < 256 then some (BitVec.ofNat 8 n) else none
  else none

/-- An integer literal (R45): `0x` and 8 hex digits, or a decimal integer. -/
def intLiteral : List Char → Option IntLiteral
  | '0' :: 'x' :: cs => if cs.length = 8 then (digits 16 0 cs).map fun n => .pattern (BitVec.ofNat 32 n) else none
  | '-' :: c :: cs => (digits 10 0 (c :: cs)).map fun n => .decimal (-(n : Int))
  | c :: cs => (digits 10 0 (c :: cs)).map fun n => .decimal (n : Int)
  | [] => none

/-- The bytes of a list up to its closing bracket, and the tokens after it. -/
def byteElems : List Token → Option (List Byte × List Token)
  | .word w :: .rbracket :: ts => (byteLiteral w).map fun b => ([b], ts)
  | .word w :: .comma :: ts => (byteLiteral w).bind fun b => (byteElems ts).map fun r => (b :: r.1, r.2)
  | _ => none

/-- A byte list `[b0, b1, ...]`, possibly empty, and the tokens after it. -/
def byteList : List Token → Option (List Byte × List Token)
  | .lbracket :: .rbracket :: ts => some ([], ts)
  | .lbracket :: ts => byteElems ts
  | _ => none

/-- One byte list and nothing after it. -/
def onlyBytes (ts : List Token) : Option (List Byte) :=
  (byteList ts).bind fun r => if r.2 = [] then some r.1 else none

/-- A line of the assembler from its tokens: the mnemonic and its operands (R45). -/
def lineOfTokens : List Token → Option AsmLine
  | .word m :: ts =>
    if m = "decode_i32".toList then (onlyBytes ts).map .decodeI32
    else if m = "decode_i32_vector".toList then (onlyBytes ts).map .decodeI32Vector
    else if m = "encode_i32".toList then
      match ts with
      | [.word v] => (intLiteral v).map .encodeI32
      | _ => none
    else if m = ".reserved".toList then
      match byteList ts with
      | some (bytes, [.comma, .word v]) => (intLiteral v).map (.reserved bytes)
      | _ => none
    else if m = "reset".toList ∧ ts = [] then some .reset
    else none
  | _ => none

/-- Reads a line of the assembler (R45). -/
def readLine (text : String) : Option AsmLine := lineOfTokens (tokens [] text.toList)

end Sys2Proof.Machine
end

