-- ==== Sys2Proof/Safety.lean ====
section
/-! DEFINITION. What claims speak of: the legal latches (spec/10_state.md R11, R16 to R19), and runs with their observation
(spec/70_reset_and_hazards.md R76). -/

namespace Sys2Proof.Machine

/-- A payload as R17, R18 and R19 allow it: a vector's count is the number of its elements and at most MAX_VEC_COUNT. -/
abbrev Payload.Legal : Payload → Prop
  | .i32 _ => True
  | .vec n e => n = e.length ∧ n ≤ Config.maxVecCount
  | .bytes _ => True

/-- A response as R15 and R17 allow it. -/
abbrev Response.Legal : Response → Prop
  | .ok p => p.Legal
  | .err _ => True

/-- RSP is `none` exactly when RSP_VALID = 0 (R11), and what it holds is legal (R19). -/
abbrev State.LatchWf (s : State) : Prop :=
  (s.rsp = none ↔ s.rspValid = 0#1) ∧ ∀ x, s.rsp = some x → x.Legal

/-- A request that has a step (R25, R72): one of the spec's requests, and within capacity if it is a decode. -/
abbrev RequestAccepted (r : Request) : Prop :=
  r.WellFormed ∧ (r.op = 0b00#2 ∨ r.op = 0b01#2 → r.len ≤ Config.maxInBytes)

/-- The requests among the host's moves, in order. -/
def requestsOf : List HostMove → List Request
  | [] => []
  | .request r :: ms => r :: requestsOf ms
  | .read _ :: ms => requestsOf ms
  | .reset :: ms => requestsOf ms

/-- How a run stands after its moves (R76): it ended, or it is stuck at a move that has no step. -/
inductive Finish where
  | ended
  | stuck (why : Fault)
  | refused (why : Refusal)
deriving DecidableEq, Repr

/-- What R76 lets a claim speak of: the responses written, one per accepted request, in order, and the final state. -/
structure Observation where
  responses : List Response
  final : State
  finish : Finish
deriving DecidableEq, Repr

/-- The response a step from `s` to `t` wrote: there is one exactly if the move taken was a request. -/
def writtenResponse (s t : State) : List Response :=
  match s.pending with
  | .request _ :: _ => t.rsp.toList
  | _ => []

/-- The observation of the first `n` steps from a state (R76): a move with no step ends it, and the final latch is the
one before that move. -/
def observe : Nat → State → Observation
  | 0, s => { responses := [], final := s, finish := .ended }
  | n + 1, s =>
    match step s with
    | .next t =>
      let o := observe n t
      { o with responses := writtenResponse s t ++ o.responses }
    | .fault why => { responses := [], final := s, finish := .stuck why }
    | .refused why => { responses := [], final := s, finish := .refused why }

/-- The run of all the host's moves (R76). -/
def run (s : State) : Observation := observe s.pending.length s

/-- Every move of the list has a step when the list is run from the given latch: its requests are accepted (R25, R72),
and each of its reads is of a field that has a value where the moves before it leave the latch (R17, R72). -/
def EveryMoveHasAStep (valid : BitVec 1) (held : Option Response) (ms : List HostMove) : Prop :=
  (∀ r : Request, .request r ∈ ms → RequestAccepted r) ∧
    ∀ (before : List HostMove) (f : Field) (later : List HostMove), ms = before ++ .read f :: later →
      ∃ v : FieldValue, readField f (run { rspValid := valid, rsp := held, pending := before }).final = .ok v

end Sys2Proof.Machine
end

