-- ==== Sys2Proof/Certificates/Slice0/Obligations.lean ====
section
/-! DEFINITION. The statements about the codec. Each docstring names the rule of spec/ it formalises; where a clause rests on a
choice of the model, it says so and names the log entry. -/

open Sys2Proof Sys2Proof.Machine

/-! ## Parameters and integers -/

/-- The row MAX_IN_BYTES and MAX_VEC_COUNT of spec/00_scope.md R5, with the upper bound of 92 D6: the capacity is at least
4 and at most 2^32 - 1, and the vector count is a quarter of it. -/
def Obligations.CapacityIsInTheSpecsRange : Prop :=
  4 ≤ Config.maxInBytes ∧ Config.maxInBytes ≤ 2 ^ 32 - 1 ∧ Config.maxVecCount = Config.maxInBytes / 4

/-- spec/00_scope.md R7, whose formulas the spec marks "[from general knowledge, not in source]": the values of u32 and
s32, and that they are inverse to each other. -/
def Obligations.TwosComplementIsABijection : Prop :=
  (∀ v : Int, -2 ^ 31 ≤ v → v < 2 ^ 31 →
    ((u32 v).toNat : Int) = (if 0 ≤ v then v else v + 2 ^ 32) ∧ s32 (u32 v) = v) ∧
  (∀ u : Word,
    s32 u = (if u.getLsbD 31 then (u.toNat : Int) - 2 ^ 32 else (u.toNat : Int)) ∧
      -2 ^ 31 ≤ s32 u ∧ s32 u < 2 ^ 31 ∧ u32 (s32 u) = u)

/-! ## Requests and their encoding -/

/-- spec/30_encoding.md R37: the selector map, and that every value of OP selects a row. -/
def Obligations.SelectorChoosesItsRow : Prop :=
  ∀ r : Request, r.WellFormed →
    (r.op = 0b00#2 → decode r = .ok (.decodeI32 r.buf r.val)) ∧
    (r.op = 0b01#2 → decode r = .ok (.decodeI32Vector r.buf r.val)) ∧
    (r.op = 0b10#2 → decode r = .ok (.encodeI32 r.buf r.val)) ∧
    (r.op = 0b11#2 → decode r = .ok (.reserved r.buf r.val)) ∧
    (r.op = 0b00#2 ∨ r.op = 0b01#2 ∨ r.op = 0b10#2 ∨ r.op = 0b11#2)

/-- The requests 1 and 2 of program P1 and request 3 of P3 (spec/95_test_vectors.md), field by field as the tables there
give them, decode to their operations; and the four opcode-table words do. That an opcode-table word, whose bits the table
gives for OP only, is read as a row of bits with LEN, VAL and BUF from its other bits (here 0 and empty) is the model's
choice (log entry 6). -/
def Obligations.WrittenOutWordsDecode : Prop :=
  decode { op := 0b01#2, buf := [0x01, 0, 0, 0, 0x02, 0, 0, 0, 0x03, 0, 0, 0], val := 0x00000000 } =
      .ok (.decodeI32Vector [1, 0, 0, 0, 2, 0, 0, 0, 3, 0, 0, 0] 0) ∧
    decode { op := 0b10#2, buf := [], val := 0x00000002 } = .ok (.encodeI32 [] 2) ∧
    decode { op := 0b11#2, buf := [0x01, 0, 0, 0], val := 0x00000005 } = .ok (.reserved [1, 0, 0, 0] 5) ∧
    decodeTableWord 8 0b00 = some (.decodeI32 [] 0) ∧
    decodeTableWord 8 0b01 = some (.decodeI32Vector [] 0) ∧
    decodeTableWord 8 0b10 = some (.encodeI32 [] 0) ∧
    decodeTableWord 8 0b11 = some (.reserved [] 0)

/-- Decoding the row of bits of a well-formed instruction, with anything after it, gives the instruction with every
operand and what came after it: LEN alone tells the row's length (spec/30_encoding.md R43). The order of the fields
in the row is the model's choice (log entry 6). -/
def Obligations.DecodeBitsOfEncodeBits : Prop :=
  ∀ (i : Instr) (rest : Nat), i.WellFormed →
    decodeBits (encodeBits i + 2 ^ (encode i).bitLength * rest) = .ok (i, rest)

/-- Every row of bits begins with a request: the decoder refuses none, what it gives is well-formed, and encoding it gives
the row back. The order of the fields in the row is the model's choice (log entry 6). -/
def Obligations.EncodeBitsOfDecodeBits : Prop :=
  ∀ w : Nat, ∃ (i : Instr) (rest : Nat),
    decodeBits w = .ok (i, rest) ∧ i.WellFormed ∧ encodeBits i + 2 ^ (encode i).bitLength * rest = w

/-- No request of the spec's is refused, and the request is the one that spells what it decodes to
(spec/30_encoding.md R36, R37, R39). -/
def Obligations.EncodeOfDecodedRequest : Prop :=
  ∀ r : Request, r.WellFormed → ∃ i : Instr, decode r = .ok i ∧ i.WellFormed ∧ encode i = r

/-- What each line of the assembler stands for, with LEN the number of bytes listed and the fields its line does not list
0 or empty; a decimal literal out of range, and a byte list that LEN cannot count, are rejected (spec/30_encoding.md,
Assembler syntax). The same section asks for the ignored fields to be emptied and lists both operands on the `.reserved`
line: that `.reserved` keeps them is the model's choice (log entry 11). -/
def Obligations.AssemblerLinesAreCanonical : Prop :=
  (∀ bytes : List Byte, bytes.length < 2 ^ 32 →
    assemble (.decodeI32 bytes) = some (.request { op := 0b00#2, buf := bytes, val := 0 }) ∧
    assemble (.decodeI32Vector bytes) = some (.request { op := 0b01#2, buf := bytes, val := 0 }) ∧
    (∀ v : Int, -2 ^ 31 ≤ v → v < 2 ^ 31 → ∃ w : Word, s32 w = v ∧
      assemble (.encodeI32 (.decimal v)) = some (.request { op := 0b10#2, buf := [], val := w }) ∧
      assemble (.reserved bytes (.decimal v)) = some (.request { op := 0b11#2, buf := bytes, val := w }))) ∧
  (∀ (bytes : List Byte) (w : Word), bytes.length < 2 ^ 32 →
    assemble (.encodeI32 (.pattern w)) = some (.request { op := 0b10#2, buf := [], val := w }) ∧
    assemble (.reserved bytes (.pattern w)) = some (.request { op := 0b11#2, buf := bytes, val := w })) ∧
  (∀ (bytes : List Byte) (v : Int), v < -2 ^ 31 ∨ 2 ^ 31 ≤ v →
    assemble (.encodeI32 (.decimal v)) = none ∧ assemble (.reserved bytes (.decimal v)) = none) ∧
  (∀ (bytes : List Byte) (v : IntLiteral), 2 ^ 32 ≤ bytes.length →
    assemble (.decodeI32 bytes) = none ∧ assemble (.decodeI32Vector bytes) = none ∧
    assemble (.reserved bytes v) = none) ∧
  assemble .reset = some .reset

/-! ## The step -/

/-- A step takes the host's next request and performs what it decodes to, and nothing else: the rest of the host's moves
stay pending. How the host's moves stand in State is the model's choice (log entries 2 and 12). -/
def Obligations.StepPerformsTheDecodedRequest : Prop :=
  ∀ (valid : BitVec 1) (held : Option Response) (r : Request) (rest : List HostMove) (i : Instr),
    decode r = .ok i →
    step { rspValid := valid, rsp := held, pending := .request r :: rest } =
      exec i { rspValid := valid, rsp := held, pending := rest }

/-- The step after presenting an opcode-table word performs the instruction the word decodes to, on the state before.
How a program is presented is the model's choice (log entry 3). -/
def Obligations.StepPerformsTheTableWord : Prop :=
  ∀ (s : State) (nbits w : Nat) (i : Instr),
    decodeTableWord nbits w = some i → step (s.withFetchWord nbits w) = exec i s

/-- Between requests the codec holds its latch: a step with no move of the host to take changes nothing. That such a step
exists is the model's reading (log entry 4) of spec/60_exceptions.md R71. -/
def Obligations.IdleHoldsTheLatch : Prop :=
  ∀ s : State, s.pending = [] → step s = .next s

/-- What a reset does to the latch, in every state (spec/70_reset_and_hazards.md, Reset). That it is a move of the host taken
off a list in State, and that the moves after it stay, is the model's choice (log entries 2 and 12). -/
def Obligations.ResetMoveEmptiesTheLatch : Prop :=
  ∀ (valid : BitVec 1) (held : Option Response) (rest : List HostMove),
    step { rspValid := valid, rsp := held, pending := .reset :: rest } =
      .next { rspValid := 0#1, rsp := none, pending := rest }

/-- spec/10_state.md R21: the latch after a reset, at power-on and in every state, and that every field but RSP_VALID has no
value, so reading it faults. So a response written before a reset cannot be read after it, as the last sentence of R74
says. -/
def Obligations.ResetLeavesNoField : Prop :=
  State.reset.rspValid = 0#1 ∧ State.reset.rsp = none ∧
    readField .rspValid State.reset = .ok (.bit 0#1) ∧
    (∀ f : Field, f ≠ .rspValid → readField f State.reset = .error (.noValue f)) ∧
    ∀ s : State,
      (resetLatch s).rspValid = 0#1 ∧ (resetLatch s).rsp = none ∧
        readField .rspValid (resetLatch s) = .ok (.bit 0#1) ∧
        ∀ f : Field, f ≠ .rspValid → readField f (resetLatch s) = .error (.noValue f)

/-- The host's read of a field changes nothing where the field has a value and faults where it has none
(spec/10_state.md, Payloads; spec/60_exceptions.md, The host interface). That a read is a step is the model's choice (log
entry 8). -/
def Obligations.ReadMoveChangesNothingOrFaults : Prop :=
  ∀ (valid : BitVec 1) (held : Option Response) (f : Field) (rest : List HostMove),
    (∀ v : FieldValue, readField f { rspValid := valid, rsp := held, pending := rest } = .ok v →
      step { rspValid := valid, rsp := held, pending := .read f :: rest } =
        .next { rspValid := valid, rsp := held, pending := rest }) ∧
    (∀ e : Fault, readField f { rspValid := valid, rsp := held, pending := rest } = .error e →
      e = .noValue f ∧ step { rspValid := valid, rsp := held, pending := .read f :: rest } = .fault (.noValue f))

/-! ## What each operation does -/

/-- spec/40_decode.md R48: decode_i32 of a request within capacity. Below 4 bytes it raises INVALID_LENGTH; otherwise it
responds with the little-endian value of the first 4 bytes, whatever the others are; its sign is bit 7 of byte 3. -/
def Obligations.DecodeI32Result : Prop :=
  ∀ (buf : List Byte) (val : Word) (s : State), buf.length ≤ Config.maxInBytes →
    (buf.length < 4 →
      exec (.decodeI32 buf val) s = .next { s with rspValid := 1#1, rsp := some (.err .invalidLength) }) ∧
    (∀ (b0 b1 b2 b3 : Byte) (rest : List Byte), buf = b0 :: b1 :: b2 :: b3 :: rest →
      ∃ w : Word,
        exec (.decodeI32 buf val) s = .next { s with rspValid := 1#1, rsp := some (.ok (.i32 w)) } ∧
        w.toNat = b0.toNat + b1.toNat * 2 ^ 8 + b2.toNat * 2 ^ 16 + b3.toNat * 2 ^ 24 ∧
        s32 w = (if b3.toNat < 0x80 then (w.toNat : Int) else (w.toNat : Int) - 2 ^ 32))

/-- spec/40_decode.md R49: decode_i32_vector of a request within capacity. A remainder raises INVALID_LENGTH; otherwise it
responds with LEN div 4 elements, element k being the little-endian value of bytes 4k .. 4k+3. -/
def Obligations.DecodeI32VectorResult : Prop :=
  ∀ (buf : List Byte) (val : Word) (s : State), buf.length ≤ Config.maxInBytes →
    (buf.length % 4 ≠ 0 →
      exec (.decodeI32Vector buf val) s = .next { s with rspValid := 1#1, rsp := some (.err .invalidLength) }) ∧
    (buf.length % 4 = 0 →
      ∃ e : List Word,
        exec (.decodeI32Vector buf val) s =
          .next { s with rspValid := 1#1, rsp := some (.ok (.vec (buf.length / 4) e)) } ∧
        e.length = buf.length / 4 ∧
        ∀ k : Nat, k < buf.length / 4 → ∃ (w : Word) (b0 b1 b2 b3 : Byte),
          e[k]? = some w ∧
          buf[4 * k]? = some b0 ∧ buf[4 * k + 1]? = some b1 ∧ buf[4 * k + 2]? = some b2 ∧ buf[4 * k + 3]? = some b3 ∧
          w.toNat = b0.toNat + b1.toNat * 2 ^ 8 + b2.toNat * 2 ^ 16 + b3.toNat * 2 ^ 24 ∧
          s32 w = (if b3.toNat < 0x80 then (w.toNat : Int) else (w.toNat : Int) - 2 ^ 32))

/-- spec/41_encode.md R53: encode_i32 always responds with the 4 bytes of VAL mod 2^32, least significant first; byte 3
shows the sign. LEN and BUF are any. -/
def Obligations.EncodeI32Result : Prop :=
  ∀ (buf : List Byte) (val : Word) (s : State), ∃ q : ByteQuad,
    exec (.encodeI32 buf val) s = .next { s with rspValid := 1#1, rsp := some (.ok (.bytes q)) } ∧
    (q.b0.toNat : Int) = s32 val % 2 ^ 32 % 2 ^ 8 ∧
    (q.b1.toNat : Int) = s32 val % 2 ^ 32 / 2 ^ 8 % 2 ^ 8 ∧
    (q.b2.toNat : Int) = s32 val % 2 ^ 32 / 2 ^ 16 % 2 ^ 8 ∧
    (q.b3.toNat : Int) = s32 val % 2 ^ 32 / 2 ^ 24 % 2 ^ 8 ∧
    (s32 val < 0 ↔ 0x80 ≤ q.b3.toNat)

/-- spec/30_encoding.md R38: a request with OP = 11 is accepted, whatever LEN, BUF and VAL are, and raises ILLEGAL_OP. -/
def Obligations.ReservedRaisesIllegalOp : Prop :=
  ∀ (buf : List Byte) (val : Word) (s : State),
    exec (.reserved buf val) s = .next { s with rspValid := 1#1, rsp := some (.err .illegalOp) }

/-- The order of the checks, the first that applies deciding the outcome, for every request by its OP
(spec/60_exceptions.md, Priority). Where that section says "no step", the answer is the fault overCapacity: the model's
reading (log entry 5). -/
def Obligations.ChecksAreMadeInOrder : Prop :=
  ∀ (op : BitVec 2) (buf : List Byte) (val : Word) (s : State), ∃ p : Payload,
    exec (select op buf val) s =
      if op = 0b11#2 then .next { s with rspValid := 1#1, rsp := some (.err .illegalOp) }
      else if (op = 0b00#2 ∨ op = 0b01#2) ∧ Config.maxInBytes < buf.length then .fault .overCapacity
      else if (op = 0b00#2 ∧ buf.length < 4) ∨ (op = 0b01#2 ∧ buf.length % 4 ≠ 0) then
        .next { s with rspValid := 1#1, rsp := some (.err .invalidLength) }
      else .next { s with rspValid := 1#1, rsp := some (.ok p) }

/-- Exactly the decode requests beyond capacity have no step (spec/20_memory.md, Address spaces: Capacity). The name of the
fault is the model's (log entry 5). -/
def Obligations.OnlyOversizeDecodesHaveNoStep : Prop :=
  ∀ (i : Instr) (s : State),
    ((∀ t : State, exec i s ≠ .next t) ↔
      ∃ (buf : List Byte) (val : Word),
        (i = .decodeI32 buf val ∨ i = .decodeI32Vector buf val) ∧ Config.maxInBytes < buf.length) ∧
    ((∀ t : State, exec i s ≠ .next t) → exec i s = .fault .overCapacity)

/-- spec/60_exceptions.md R59: exactly which requests raise which code, and that a request beyond capacity raises none. -/
def Obligations.ErrorsHaveExactlyTheseCauses : Prop :=
  (∀ (i : Instr) (s t : State) (c : ErrCode), exec i s = .next t →
    (t.rsp = some (.err c) ↔
      (c = .invalidLength ∧ ∃ (buf : List Byte) (val : Word),
        (i = .decodeI32 buf val ∧ buf.length < 4) ∨ (i = .decodeI32Vector buf val ∧ buf.length % 4 ≠ 0)) ∨
      (c = .illegalOp ∧ ∃ (buf : List Byte) (val : Word), i = .reserved buf val))) ∧
  (∀ (buf : List Byte) (val : Word) (s t : State), Config.maxInBytes < buf.length →
    exec (.decodeI32 buf val) s ≠ .next t ∧ exec (.decodeI32Vector buf val) s ≠ .next t)

/-- The frame of every operation: an accepted request writes the latch and nothing else (spec/00_scope.md, Notation;
spec/10_state.md, The response latch). -/
def Obligations.OperationsWriteOnlyTheLatch : Prop :=
  ∀ (i : Instr) (s t : State), exec i s = .next t →
    t.pending = s.pending ∧ t.rspValid = 1#1 ∧ ∃ x : Response, t.rsp = some x

/-- spec/30_encoding.md R42: what each operation ignores has no effect on its response or on whether it has a step. -/
def Obligations.IgnoredFieldsHaveNoEffect : Prop :=
  (∀ (b0 b1 b2 b3 : Byte) (tail tail' : List Byte) (val val' : Word) (s : State), tail.length = tail'.length →
    exec (.decodeI32 (b0 :: b1 :: b2 :: b3 :: tail) val) s = exec (.decodeI32 (b0 :: b1 :: b2 :: b3 :: tail') val') s) ∧
  (∀ (buf buf' : List Byte) (val val' : Word) (s : State),
    exec (.decodeI32 buf val) s = exec (.decodeI32 buf val') s ∧
    exec (.decodeI32Vector buf val) s = exec (.decodeI32Vector buf val') s ∧
    exec (.encodeI32 buf val) s = exec (.encodeI32 buf' val) s ∧
    exec (.reserved buf val) s = exec (.reserved buf' val') s)

/-! ## Byte order and laws of the operations -/

/-- spec/20_memory.md R26: byte 4k+j of the input buffer is bits 8j+7 : 8j of group k, and byte j of the output is bits
8j+7 : 8j of the encoded value. -/
def Obligations.BytesAreLittleEndian : Prop :=
  (∀ (buf : List Byte) (k : Nat) (h : 4 * k + 3 < buf.length) (j : Nat), j < 4 →
    buf[4 * k + j]? = some ((group buf k h).extractLsb' (8 * j) 8)) ∧
  (∀ (buf : List Byte) (val : Word) (s t : State), exec (.encodeI32 buf val) s = .next t →
    ∀ j : Fin 4, readField (.outByte j) t = .ok (.byte (val.extractLsb' (8 * j.val) 8)))

/-- The value of a group as a sum, and its sign bit (spec/40_decode.md, Shared: group assembly, where the spec marks the
two's-complement reading "[derived: from 41_encode.md rule R53 and rule R54]"). -/
def Obligations.GroupIsTheSumOfItsBytes : Prop :=
  ∀ (buf : List Byte) (k : Nat) (h : 4 * k + 3 < buf.length),
    ∃ b0 b1 b2 b3 : Byte,
      buf[4 * k]? = some b0 ∧ buf[4 * k + 1]? = some b1 ∧ buf[4 * k + 2]? = some b2 ∧ buf[4 * k + 3]? = some b3 ∧
      (group buf k h).toNat = b0.toNat + b1.toNat * 2 ^ 8 + b2.toNat * 2 ^ 16 + b3.toNat * 2 ^ 24 ∧
      (s32 (group buf k h) < 0 ↔ b3.getLsbD 7 = true)

/-- Where both decoders succeed, decode_i32 gives element 0 of the vector; on 4 bytes they agree (spec/40_decode.md, Laws of
the decode family, which the spec marks "[derived: from rule R48 and rule R49]"). -/
def Obligations.DecodersAgreeOnTheFirstGroup : Prop :=
  ∀ (buf : List Byte) (val val' : Word) (s s' : State), buf.length ≤ Config.maxInBytes → 4 ≤ buf.length →
    buf.length % 4 = 0 →
    ∃ (w : Word) (e : List Word),
      exec (.decodeI32Vector buf val) s =
        .next { s with rspValid := 1#1, rsp := some (.ok (.vec (buf.length / 4) (w :: e))) } ∧
      exec (.decodeI32 buf val') s' = .next { s' with rspValid := 1#1, rsp := some (.ok (.i32 w)) } ∧
      (buf.length = 4 → e = [])

/-- decode_i32 is a bijection from the byte quadruples onto -2^31 .. 2^31 - 1 (spec/40_decode.md, Laws of the decode
family, which the spec marks "[derived: from rule R47 and 00_scope.md rule R7]"). -/
def Obligations.DecodeI32IsABijection : Prop :=
  (∀ (q : ByteQuad) (val : Word) (s : State), ∃ (v : Int) (t : State), -2 ^ 31 ≤ v ∧ v < 2 ^ 31 ∧
    exec (.decodeI32 (quadList q) val) s = .next t ∧ readField .outI32 t = .ok (.integer v)) ∧
  (∀ v : Int, -2 ^ 31 ≤ v → v < 2 ^ 31 →
    ∃! q : ByteQuad, ∀ (val : Word) (s : State), ∃ t : State,
      exec (.decodeI32 (quadList q) val) s = .next t ∧ readField .outI32 t = .ok (.integer v))

/-- encode_i32 is a bijection from -2^31 .. 2^31 - 1 onto the byte quadruples (spec/41_encode.md, Round-trip laws, which the
spec marks "[derived: from rule R53 and 00_scope.md rule R7]"). -/
def Obligations.EncodeI32IsABijection : Prop :=
  ∀ q : ByteQuad, ∃! v : Int, -2 ^ 31 ≤ v ∧ v < 2 ^ 31 ∧
    ∀ (buf : List Byte) (s : State),
      exec (.encodeI32 buf (u32 v)) s = .next { s with rspValid := 1#1, rsp := some (.ok (.bytes q)) }

/-- Decoding what encode_i32 gives reads back the value, for every 32-bit integer (spec/41_encode.md, Round-trip laws, which
the spec marks derived). -/
def Obligations.DecodeAfterEncode : Prop :=
  ∀ v : Int, -2 ^ 31 ≤ v → v < 2 ^ 31 →
    ∃ q : ByteQuad,
      (∀ (buf : List Byte) (s : State),
        exec (.encodeI32 buf (u32 v)) s = .next { s with rspValid := 1#1, rsp := some (.ok (.bytes q)) }) ∧
      (∀ (val : Word) (s : State), ∃ t : State,
        exec (.decodeI32 (quadList q) val) s = .next t ∧ readField .outI32 t = .ok (.integer v))

/-- Encoding what decode_i32 gives yields the first 4 bytes of the buffer, so the whole buffer exactly where it has 4
bytes (spec/41_encode.md, Round-trip laws, which the spec marks derived; spec/90_conflicts.md C1). -/
def Obligations.EncodeAfterDecode : Prop :=
  ∀ (b0 b1 b2 b3 : Byte) (tail : List Byte) (val : Word) (s : State), tail.length + 4 ≤ Config.maxInBytes →
    ∃ w : Word,
      exec (.decodeI32 (b0 :: b1 :: b2 :: b3 :: tail) val) s =
        .next { s with rspValid := 1#1, rsp := some (.ok (.i32 w)) } ∧
      ∀ (buf : List Byte) (s' : State),
        exec (.encodeI32 buf w) s' =
          .next { s' with rspValid := 1#1, rsp := some (.ok (.bytes { b0 := b0, b1 := b1, b2 := b2, b3 := b3 })) }

/-- Encoding the elements of a decoded vector in order and appending the results gives the buffer back, the empty one
included (spec/41_encode.md, Round-trip laws, which the spec marks derived; spec/90_conflicts.md C1). -/
def Obligations.EncodeAfterVectorDecode : Prop :=
  ∀ (buf : List Byte) (val : Word) (s : State), buf.length ≤ Config.maxInBytes → buf.length % 4 = 0 →
    ∃ (e : List Word) (qs : List ByteQuad),
      exec (.decodeI32Vector buf val) s =
        .next { s with rspValid := 1#1, rsp := some (.ok (.vec (buf.length / 4) e)) } ∧
      List.Forall₂ (fun (w : Word) (q : ByteQuad) => ∀ (b : List Byte) (s' : State),
        exec (.encodeI32 b w) s' = .next { s' with rspValid := 1#1, rsp := some (.ok (.bytes q)) }) e qs ∧
      qs.flatMap quadList = buf

/-! ## The latch and its reads -/

/-- Every step keeps the latch legal: RSP is none exactly when RSP_VALID = 0, and a vector's count is the number of its
elements and at most MAX_VEC_COUNT (spec/10_state.md, What is state; Payloads; Control and status registers). -/
def Obligations.StepKeepsTheLatchLegal : Prop :=
  ∀ s t : State, s.LatchWf → step s = .next t → t.LatchWf

/-- The latch is legal after reset. -/
def Obligations.ResetLatchIsLegal : Prop := State.reset.LatchWf

/-- STATUS of a held response: 0 for Ok, 1 for INVALID_LENGTH, 2 for ILLEGAL_OP; no read ever gives 3
(spec/10_state.md, Status). -/
def Obligations.StatusNumbers : Prop :=
  (∀ (p : Payload) (pending : List HostMove),
    readField .status { rspValid := 1#1, rsp := some (.ok p), pending := pending } = .ok (.status 0#2)) ∧
  (∀ pending : List HostMove,
    readField .status { rspValid := 1#1, rsp := some (.err .invalidLength), pending := pending } = .ok (.status 1#2) ∧
    readField .status { rspValid := 1#1, rsp := some (.err .illegalOp), pending := pending } = .ok (.status 2#2)) ∧
  (∀ s : State, readField .status s ≠ .ok (.status 3#2))

/-- Which payload fields a held response has and what reading each gives; every other field faults, all of them for an
`Err` (spec/10_state.md, Payloads). That an element of OUT_VEC at OUT_COUNT or beyond has no value is the model's reading
(log entry 13). -/
def Obligations.OnlyTheHeldKindHasFields : Prop :=
  ∀ (s : State) (x : Response) (f : Field), s.LatchWf → s.rsp = some x → f ≠ .rspValid → f ≠ .status →
    (∀ v : FieldValue, readField f s = .ok v ↔
      (∃ w : Word, x = .ok (.i32 w) ∧ f = .outI32 ∧ v = .integer (s32 w)) ∨
      (∃ e : List Word, x = .ok (.vec e.length e) ∧
        ((f = .outCount ∧ v = .count e.length) ∨
          ∃ (k : Nat) (w : Word), f = .outVec k ∧ e[k]? = some w ∧ v = .integer (s32 w))) ∨
      (∃ b0 b1 b2 b3 : Byte, x = .ok (.bytes { b0 := b0, b1 := b1, b2 := b2, b3 := b3 }) ∧
        ((f = .outByte 0 ∧ v = .byte b0) ∨ (f = .outByte 1 ∧ v = .byte b1) ∨
          (f = .outByte 2 ∧ v = .byte b2) ∨ (f = .outByte 3 ∧ v = .byte b3)))) ∧
    ((∀ v : FieldValue, readField f s ≠ .ok v) → readField f s = .error (.noValue f))

/-! ## Whole-machine rules -/

/-- The response to a request is a function of that request and MAX_IN_BYTES alone: two states with the same next request
answer alike, whatever their latches and later moves (spec/10_state.md, Hidden state). The model's own are: that "no
step" is the fault overCapacity (log entry 5), that a term which is no request is refused (log entry 7), and that the later
moves stand in State and stay (log entries 2 and 12). -/
def Obligations.ResponseDependsOnTheRequestAlone : Prop :=
  ∀ (r : Request) (v v' : BitVec 1) (x x' : Option Response) (p p' : List HostMove),
    (∃ y : Response,
      step { rspValid := v, rsp := x, pending := .request r :: p } = .next { rspValid := 1#1, rsp := some y, pending := p } ∧
      step { rspValid := v', rsp := x', pending := .request r :: p' } =
        .next { rspValid := 1#1, rsp := some y, pending := p' }) ∨
    (step { rspValid := v, rsp := x, pending := .request r :: p } = .fault .overCapacity ∧
      step { rspValid := v', rsp := x', pending := .request r :: p' } = .fault .overCapacity) ∨
    (¬ r.WellFormed ∧
      step { rspValid := v, rsp := x, pending := .request r :: p } = .refused (.notARequest .lenTooLarge) ∧
      step { rspValid := v', rsp := x', pending := .request r :: p' } = .refused (.notARequest .lenTooLarge))

/-- Repeating a request writes the same response again (spec/20_memory.md, Access widths, atomicity and side effects). -/
def Obligations.RepeatingARequestIsIdempotent : Prop :=
  ∀ (i : Instr) (s t : State), exec i s = .next t → exec i t = .next t

/-- Every run of requests within capacity, resets and reads of fields that have a value ends, from any latch; its responses
are those of a function of the single request, in the requests' order; and its final latch is the last request's
response, or empty after a reset, or what it was before a read (spec/70_reset_and_hazards.md, Runs and observation;
spec/20_memory.md, Ordering; spec/60_exceptions.md, The host interface). That the host's moves stand in a list that is
empty at the end is the model's choice (log entries 2 and 12), and so is that a read is a move of its own (log entry 8). -/
def Obligations.RunsAnswerEachRequestInOrder : Prop :=
  ∃ f : Request → Response, ∀ (v : BitVec 1) (x : Option Response) (ms : List HostMove), EveryMoveHasAStep v x ms →
    (run { rspValid := v, rsp := x, pending := ms }).finish = .ended ∧
    (run { rspValid := v, rsp := x, pending := ms }).responses = (requestsOf ms).map f ∧
    (run { rspValid := v, rsp := x, pending := ms }).final.pending = [] ∧
    (∀ r : Request, RequestAccepted r →
      (run { rspValid := v, rsp := x, pending := ms ++ [.request r] }).final =
        { rspValid := 1#1, rsp := some (f r), pending := [] }) ∧
    (run { rspValid := v, rsp := x, pending := ms ++ [.reset] }).final =
      { rspValid := 0#1, rsp := none, pending := [] } ∧
    (∀ (g : Field) (w : FieldValue),
      readField g (run { rspValid := v, rsp := x, pending := ms }).final = .ok w →
      (run { rspValid := v, rsp := x, pending := ms ++ [.read g] }).final =
        (run { rspValid := v, rsp := x, pending := ms }).final)

/-- A run that meets a move with no step is stuck there: its observation is that of the moves before it, its final latch the
one before it, and no later move is performed. Such a move is a decode request beyond capacity, whose fault is
overCapacity (spec/20_memory.md, Address spaces: Capacity; spec/70_reset_and_hazards.md, Runs and observation). That "no
step" is a fault, and that the state before it is the run's last, is the model's reading (log entry 5); that a read's
fault ends a run too is log entry 8; a term whose BUF LEN cannot count is no request and is refused (log entry 7). -/
def Obligations.StuckRunsPerformNothingMore : Prop :=
  (∀ (n k : Nat) (s : State) (why : Fault),
    (observe n s).finish = .ended → step (observe n s).final = .fault why →
    observe (n + 1 + k) s =
      { responses := (observe n s).responses, final := (observe n s).final, finish := .stuck why }) ∧
  (∀ (n k : Nat) (s : State) (r : Request) (later : List HostMove),
    (observe n s).finish = .ended → (observe n s).final.pending = .request r :: later →
    r.op = 0b00#2 ∨ r.op = 0b01#2 → Config.maxInBytes < r.len →
    observe (n + 1 + k) s =
      { responses := (observe n s).responses
        final := (observe n s).final
        finish := if r.len < 2 ^ 32 then .stuck .overCapacity else .refused (.notARequest .lenTooLarge) })
end

