-- ==== Sys2Proof/Laws/State.lean ====
section
/-! SUPPORT. One lemma per field per update of State. -/

namespace Sys2Proof.Machine

@[simp] theorem writeLatch_rspValid (x : Response) (s : State) : (writeLatch x s).rspValid = 1#1 := rfl
@[simp] theorem writeLatch_rsp (x : Response) (s : State) : (writeLatch x s).rsp = some x := rfl
@[simp] theorem writeLatch_pending (x : Response) (s : State) : (writeLatch x s).pending = s.pending := rfl
@[simp] theorem writeLatch_writeLatch (x y : Response) (s : State) : writeLatch x (writeLatch y s) = writeLatch x s := rfl

@[simp] theorem deliver_eq_writeLatch (x : Response) (s : State) : deliver x s = writeLatch x s := by
  cases x <;> rfl

@[simp] theorem resetLatch_rspValid (s : State) : (resetLatch s).rspValid = 0#1 := rfl
@[simp] theorem resetLatch_rsp (s : State) : (resetLatch s).rsp = none := rfl
@[simp] theorem resetLatch_pending (s : State) : (resetLatch s).pending = s.pending := rfl

@[simp] theorem presentRequest_rspValid (r : Request) (s : State) : (presentRequest r s).rspValid = s.rspValid := rfl
@[simp] theorem presentRequest_rsp (r : Request) (s : State) : (presentRequest r s).rsp = s.rsp := rfl
@[simp] theorem presentRequest_pending (r : Request) (s : State) :
    (presentRequest r s).pending = .request r :: s.pending := rfl

@[simp] theorem reset_rspValid : State.reset.rspValid = 0#1 := rfl
@[simp] theorem reset_rsp : State.reset.rsp = none := rfl
@[simp] theorem reset_pending : State.reset.pending = [] := rfl

end Sys2Proof.Machine
end

