-- ==== Sys2Proof/Laws/Ops.lean ====
section
/-! SUPPORT. For each shared operation, once, everything it can do. -/

namespace Sys2Proof.Machine

/-- The least capacity the spec allows (00_scope.md R5). -/
theorem four_le_maxInBytes : 4 ≤ Config.maxInBytes := Nat.le_add_left 4 _

/-- The capacity check answers a next state only within capacity, and then the given one. -/
theorem ifWithin_next_iff (cap : Nat) (buf : List Byte) (after s' : State) :
    ifWithin cap buf after = .next s' ↔ buf.length ≤ cap ∧ s' = after := by
  unfold ifWithin
  split <;> simp_all [eq_comm]

/-- The capacity check stops only beyond capacity, and then by overCapacity. -/
theorem ifWithin_fault_iff (cap : Nat) (buf : List Byte) (after : State) (f : Fault) :
    ifWithin cap buf after = .fault f ↔ cap < buf.length ∧ f = .overCapacity := by
  unfold ifWithin
  split <;> simp_all [eq_comm]

/-- The capacity check never refuses. -/
theorem ifWithin_not_refused (cap : Nat) (buf : List Byte) (after : State) (r : Refusal) :
    ifWithin cap buf after ≠ .refused r := by
  unfold ifWithin
  split <;> simp

/-- decode_i32's response below 4 bytes. -/
theorem decodeI32Response_of_short (buf : List Byte) (h : buf.length < 4) :
    decodeI32Response buf = .err .invalidLength := dif_pos h

/-- decode_i32's response from 4 bytes on. -/
theorem decodeI32Response_of_long (buf : List Byte) (h : 4 * 0 + 3 < buf.length) :
    decodeI32Response buf = .ok (.i32 (group buf 0 h)) := dif_neg (by omega)

/-- decode_i32_vector's response to a remainder. -/
theorem decodeI32VectorResponse_of_remainder (buf : List Byte) (h : buf.length % 4 ≠ 0) :
    decodeI32VectorResponse buf = .err .invalidLength := if_pos h

/-- decode_i32_vector's response to whole groups. -/
theorem decodeI32VectorResponse_of_groups (buf : List Byte) (h : buf.length % 4 = 0) :
    decodeI32VectorResponse buf = .ok (.vec (buf.length / 4) (groups buf (buf.length / 4) (by omega))) :=
  if_neg (not_not.mpr h)

theorem groups_length (buf : List Byte) (n : Nat) (h : 4 * n ≤ buf.length) : (groups buf n h).length = n := by
  simp [groups]

/-- Element k of the groups is group k (spec/40_decode.md R49). -/
theorem groups_getElem (buf : List Byte) (n k : Nat) (h : 4 * n ≤ buf.length) (hk : k < (groups buf n h).length) :
    (groups buf n h)[k] = group buf k (by rw [groups_length] at hk; omega) := by
  simp [groups]

/-- A read of the latch either gives the field's value or faults with the field. -/
theorem readField_cases (f : Field) (s : State) :
    (∃ v, fieldValue s f = some v ∧ readField f s = .ok v) ∨
      (fieldValue s f = none ∧ readField f s = .error (.noValue f)) := by
  unfold readField
  cases fieldValue s f <;> simp

/-- A read move answers the state it was made in, or the fault of a field without a value. -/
theorem performRead_cases (f : Field) (s : State) :
    (∃ v, fieldValue s f = some v ∧ performRead f s = .next s) ∨
      (fieldValue s f = none ∧ performRead f s = .fault (.noValue f)) := by
  unfold performRead readField
  cases fieldValue s f <;> simp

/-- As many bytes are taken from a row of bits as are asked for. -/
theorem takeBytes_length (n w : Nat) : (takeBytes n w).1.length = n := by
  induction n generalizing w with
  | zero => rfl
  | succ n ih => simp [takeBytes, ih]

/-- Everything an accepted or stopped request can do: `exec` writes one response to the latch, or it is stuck for
capacity. -/
theorem exec_cases (i : Instr) (s : State) :
    (∃ x : Response, x.Legal ∧ exec i s = .next (writeLatch x s)) ∨ exec i s = .fault .overCapacity := by
  cases i with
  | decodeI32 buf val =>
    by_cases hc : buf.length ≤ Config.maxInBytes
    · refine .inl ⟨decodeI32Response buf, ?_, by simp [exec, execDecodeI32, decodeI32Within, ifWithin, hc]⟩
      unfold decodeI32Response
      split <;> trivial
    · exact .inr (by simp [exec, execDecodeI32, decodeI32Within, ifWithin, hc])
  | decodeI32Vector buf val =>
    by_cases hc : buf.length ≤ Config.maxInBytes
    · refine .inl ⟨decodeI32VectorResponse buf, ?_,
        by simp [exec, execDecodeI32Vector, decodeI32VectorWithin, ifWithin, hc]⟩
      unfold decodeI32VectorResponse
      split
      · trivial
      · exact ⟨(groups_length _ _ _).symm, Nat.div_le_div_right hc⟩
    · exact .inr (by simp [exec, execDecodeI32Vector, decodeI32VectorWithin, ifWithin, hc])
  | encodeI32 buf val => exact .inl ⟨_, trivial, rfl⟩
  | reserved buf val => exact .inl ⟨_, trivial, rfl⟩

/-- What one step can do, by the host's next move. -/
theorem step_cases (s : State) :
    (s.pending = [] ∧ step s = .next s) ∨
      ∃ m rest, s.pending = m :: rest ∧ step s = performMove m { s with pending := rest } := by
  unfold step fetchMove
  cases h : s.pending with
  | nil => exact .inl ⟨rfl, rfl⟩
  | cons m rest => exact .inr ⟨m, rest, rfl, rfl⟩

/-- A request that the decoder accepts is performed by `exec`. -/
theorem performRequest_of_decode {r : Request} {i : Instr} (h : decode r = .ok i) (s : State) :
    performRequest r s = exec i s := by
  unfold performRequest
  rw [h]

end Sys2Proof.Machine
end

