-- ==== Sys2Proof/Laws/PerInstr.lean ====
section
/-! SUPPORT. The statements made per instruction, one lemma per constructor of Instr. -/

namespace Sys2Proof.Laws

/-- The decoder reads back the request the encoder writes (spec/30_encoding.md R36, R37, R39). -/
def FieldEncoding.Statement (i : Instr) : Prop := i.WellFormed → decode (encode i) = .ok i

theorem FieldEncoding.decodeI32 (buf : List Byte) (val : Word) :
    FieldEncoding.Statement (.decodeI32 buf val) :=
  fun h => by simp [decode, encode, opBits, select, Request.len, Instr.buf, Instr.val] at h ⊢; exact h

theorem FieldEncoding.decodeI32Vector (buf : List Byte) (val : Word) :
    FieldEncoding.Statement (.decodeI32Vector buf val) :=
  fun h => by simp [decode, encode, opBits, select, Request.len, Instr.buf, Instr.val] at h ⊢; exact h

theorem FieldEncoding.encodeI32 (buf : List Byte) (val : Word) :
    FieldEncoding.Statement (.encodeI32 buf val) :=
  fun h => by simp [decode, encode, opBits, select, Request.len, Instr.buf, Instr.val] at h ⊢; exact h

theorem FieldEncoding.reserved (buf : List Byte) (val : Word) :
    FieldEncoding.Statement (.reserved buf val) :=
  fun h => by simp [decode, encode, opBits, select, Request.len, Instr.buf, Instr.val] at h ⊢; exact h

end Sys2Proof.Laws
end

