-- ==== Sys2Proof/Tests/Slice0.lean ====
section
/-! SUPPORT. Tests. Expected results come from spec/95_test_vectors.md (the vector's id stands in the docstring) or are worked out
by hand from the rule named; the witnesses at the end show that the hypotheses of the obligations can be met. -/

namespace Sys2Proof.Tests

open Sys2Proof.Machine

/-! ## Well-formed terms -/

theorem test_illformed_decodeI32 : ¬ (Instr.decodeI32 (List.replicate (2 ^ 32) 0) 0).WellFormed := by
  unfold Instr.WellFormed Instr.buf; rw [List.length_replicate]; omega

theorem test_illformed_request : ¬ ({ op := 0, buf := List.replicate (2 ^ 32) 0, val := 0 } : Request).WellFormed := by
  unfold Request.WellFormed Request.len; rw [List.length_replicate]; omega

/-- The decoder refuses the ill-formed request by name (R39). -/
theorem test_decode_refuses_overlong :
    decode { op := 0b10#2, buf := List.replicate (2 ^ 32) 0, val := 0 } = .error .lenTooLarge := by
  unfold decode Request.len; rw [List.length_replicate, if_neg (by omega)]

theorem test_illformed_literal : IntLiteral.wellFormed (.decimal (2 ^ 31)) = false := by decide
theorem test_wellformed_literal : IntLiteral.wellFormed (.decimal (-2 ^ 31)) = true := by decide

/-! ## Decoding: requests written out from the tables of 95_test_vectors.md, Part 3 -/

/-- P2 request 2: OP 00, LEN 4, VAL 0, BUF 00 00 00 80. -/
theorem test_decode_P2_2 :
    decode { op := 0b00#2, buf := [0x00, 0x00, 0x00, 0x80], val := 0x00000000 } =
      .ok (.decodeI32 [0x00, 0x00, 0x00, 0x80] 0) := by decide

/-- P3 request 1: OP 01, LEN 5, VAL 0. -/
theorem test_decode_P3_1 :
    decode { op := 0b01#2, buf := [0x01, 0, 0, 0, 0x09], val := 0 } = .ok (.decodeI32Vector [1, 0, 0, 0, 9] 0) := by decide

/-- P4 request 2: OP 10, LEN 0, VAL 0xFFFFFC18. -/
theorem test_decode_P4_2 :
    decode { op := 0b10#2, buf := [], val := 0xFFFFFC18 } = .ok (.encodeI32 [] (u32 (-1000))) := by decide

/-- P3 request 3: OP 11, LEN 4, VAL 5. -/
theorem test_decode_P3_3 :
    decode { op := 0b11#2, buf := [0x01, 0, 0, 0], val := 5 } = .ok (.reserved [1, 0, 0, 0] 5) := by decide

/-- The row of bits of P3 request 3 in the layout of log entry 6: BUF, VAL, LEN, OP from the high end. -/
theorem test_row_of_bits :
    decodeTableWord 98 (0x00000001 * 2 ^ 66 + 5 * 2 ^ 34 + 4 * 2 ^ 2 + 0b11) = some (.reserved [1, 0, 0, 0] 5) := by decide

/-! ## The assembler (R45) -/

theorem test_asm_P3_1 : readLine "decode_i32_vector [01,00,00,00, 09] ; remainder" = some (.decodeI32Vector [1, 0, 0, 0, 9]) := by
  decide
theorem test_asm_P3_3 : readLine ".reserved [01,00,00,00], 5" = some (.reserved [1, 0, 0, 0] (.decimal 5)) := by decide
theorem test_asm_decimal_list : readLine "decode_i32 [1,0,0,255]" = some (.decodeI32 [1, 0, 0, 0xFF]) := by decide
theorem test_asm_pattern : readLine "encode_i32 0x80000000" = some (.encodeI32 (.pattern 0x80000000)) := by decide
theorem test_asm_negative :
    ((readLine "encode_i32 -1000").bind assemble) = some (.request { op := 0b10#2, buf := [], val := 0xFFFFFC18 }) := by decide
theorem test_asm_out_of_range : ((readLine "encode_i32 2147483648").bind assemble) = none := by decide
theorem test_asm_hex_digits : readLine "decode_i32 [fE, 9a, Af, 0G]" = none ∧
    readLine "decode_i32 [fE, 9a, Af, 00]" = some (.decodeI32 [0xFE, 0x9A, 0xAF, 0]) := by decide
theorem test_asm_reset : ((readLine "reset").bind assemble) = some .reset := by decide
theorem test_asm_unknown_mnemonic : readLine "decode_i16 [00, 00]" = none := by decide

/-! ## The operations, at the capacity 16 of Part 2 where a capacity matters -/

/-- RSP_VALID and RSP after a step that answers a next state. -/
def latchAfter : Result → Option (BitVec 1 × Option Response)
  | .next t => some (t.rspValid, t.rsp)
  | _ => none

/-- Whether a step stopped for capacity. -/
def isOverCapacity : Result → Bool
  | .fault .overCapacity => true
  | _ => false

/-- A state whose latch holds a response. -/
def holding (x : Response) : State := { rspValid := 1, rsp := some x, pending := [] }

/-- DI15: bytes 4..6 ignored, LEN 7 accepted (90_conflicts.md C2). -/
theorem test_DI15 :
    latchAfter (decodeI32Within 16 [0x01, 0, 0, 0, 9, 9, 9] .reset) = some (1, some (.ok (.i32 1))) := by decide

/-- DI8: the byte order. DI11, DI20: the sign and the capacity. -/
theorem test_DI8_DI11_DI20 :
    latchAfter (decodeI32Within 16 [0x78, 0x56, 0x34, 0x12] .reset) = some (1, some (.ok (.i32 (u32 305419896)))) ∧
      latchAfter (decodeI32Within 16 [0x00, 0x00, 0x80, 0xFF] .reset) = some (1, some (.ok (.i32 (u32 (-8388608))))) ∧
      isOverCapacity (decodeI32Within 16 (List.replicate 20 0) .reset) = true := by decide

/-- DV5: lanes have their own signs; DV1: the empty vector is no error. -/
theorem test_DV5_DV1 :
    latchAfter (decodeI32VectorWithin 16 [0x78, 0x56, 0x34, 0x12, 0xEF, 0xCD, 0xAB, 0x90] .reset) =
        some (1, some (.ok (.vec 2 [u32 305419896, u32 (-1867788817)]))) ∧
      latchAfter (decodeI32VectorWithin 16 [] .reset) = some (1, some (.ok (.vec 0 []))) := by decide

/-- DV6: full capacity accepted; DV10: no partial vector; DV13: beyond capacity. -/
theorem test_DV6_DV10_DV13 :
    latchAfter (decodeI32VectorWithin 16 [0, 0, 0, 0, 1, 0, 0, 0, 0xFF, 0xFF, 0xFF, 0xFF, 0, 0, 0, 0x80] .reset) =
        some (1, some (.ok (.vec 4 [0, 1, u32 (-1), u32 (-2147483648)]))) ∧
      latchAfter (decodeI32VectorWithin 16 [1, 0, 0, 0, 9] .reset) = some (1, some (.err .invalidLength)) ∧
      isOverCapacity (decodeI32VectorWithin 16 (List.replicate 20 0) .reset) = true := by decide

/-- EN15 and EN14: the byte order, and a negative value with byte 0 below 0x80. -/
theorem test_EN15_EN14 :
    latchAfter (execEncodeI32 [] (u32 (-1867788817)) .reset) = some (1, some (.ok (.bytes ⟨0xEF, 0xCD, 0xAB, 0x90⟩))) ∧
      latchAfter (execEncodeI32 [] (u32 (-129)) .reset) = some (1, some (.ok (.bytes ⟨0x7F, 0xFF, 0xFF, 0xFF⟩))) := by decide

/-- EN16: the capacity is not checked for an encode. -/
theorem test_EN16 :
    latchAfter (execEncodeI32 (List.replicate 20 0) 7 .reset) = some (1, some (.ok (.bytes ⟨7, 0, 0, 0⟩))) := by decide

/-- RS1 and RS2. -/
theorem test_RS1_RS2 :
    latchAfter (execReserved [1, 0, 0, 0] 5 .reset) = some (1, some (.err .illegalOp)) ∧
      latchAfter (execReserved (List.replicate 20 0) 0 .reset) = some (1, some (.err .illegalOp)) := by decide

/-! ## The latch, reset, and the step -/

/-- LT1: STATUS faults after reset. -/
theorem test_LT1 : readField .status .reset = .error (.noValue .status) := by decide

/-- LT2: OUT_I32 reads as a signed integer, OUT_VEC and OUT_BYTES fault. -/
theorem test_LT2 :
    readField .outI32 (holding (.ok (.i32 0xFFFFFFFE))) = .ok (.integer (-2)) ∧
      readField (.outVec 0) (holding (.ok (.i32 1))) = .error (.noValue (.outVec 0)) ∧
      readField (.outByte 0) (holding (.ok (.i32 1))) = .error (.noValue (.outByte 0)) := by decide

/-- LT3: after an error no byte of an earlier response can be read, only the code. -/
theorem test_LT3 :
    readField (.outByte 0) (holding (.err .invalidLength)) = .error (.noValue (.outByte 0)) ∧
      readField .status (holding (.err .invalidLength)) = .ok (.status 1) := by decide

/-- The element past the last has no value (R17). -/
theorem test_vector_end :
    readField (.outVec 1) (holding (.ok (.vec 2 [0, 0x80000000]))) = .ok (.integer (-2147483648)) ∧
      readField (.outVec 2) (holding (.ok (.vec 2 [0, 0x80000000]))) = .error (.noValue (.outVec 2)) := by decide

/-- LT4: a reset empties a held latch. -/
theorem test_LT4 :
    latchAfter (step { holding (.ok (.bytes ⟨2, 0, 0, 0⟩)) with pending := [.reset] }) = some (0, none) := by decide

/-- The opcode-table word 01 as the first instruction after reset: an empty buffer, the empty vector (DV1). -/
theorem test_step_first_instruction :
    latchAfter (step (State.reset.withFetchWord 8 0b01)) = some (1, some (.ok (.vec 0 []))) := by decide

/-! ## Witnesses: the hypotheses of each obligation can be met, at the boundaries of each clause -/

theorem witness_TwosComplementIsABijection :
    (-2 ^ 31 : Int) ≤ -2 ^ 31 ∧ (-2 ^ 31 : Int) < 2 ^ 31 ∧ (-2 ^ 31 : Int) ≤ 2 ^ 31 - 1 ∧ (2 ^ 31 - 1 : Int) < 2 ^ 31 := by decide

theorem witness_SelectorChoosesItsRow (op : BitVec 2) :
    ({ op := op, buf := [], val := 0 } : Request).WellFormed := by
  show (0 : Nat) < 2 ^ 32
  decide

theorem witness_EncodeOfDecodedRequest :
    ({ op := 0b11#2, buf := [1], val := 5 } : Request).WellFormed := by decide

theorem witness_DecodeBitsOfEncodeBits : (Instr.decodeI32Vector [1, 0, 0, 0, 9] 7).WellFormed := by decide

theorem witness_AssemblerLinesAreCanonical :
    ([1, 0, 0, 0] : List Byte).length < 2 ^ 32 ∧ (-2 ^ 31 : Int) ≤ -2 ^ 31 ∧ (-2 ^ 31 : Int) < 2 ^ 31 ∧
      (-2 ^ 31 : Int) ≤ 2 ^ 31 - 1 ∧ (2 ^ 31 - 1 : Int) < 2 ^ 31 ∧
      (-2 ^ 31 - 1 : Int) < -2 ^ 31 ∧ (2 ^ 31 : Int) ≤ 2 ^ 31 := by decide

/-- The clause of the byte list that LEN cannot count. -/
theorem witness_AssemblerLinesAreCanonical_overlong : 2 ^ 32 ≤ (List.replicate (2 ^ 32) (0 : Byte)).length := by
  rw [List.length_replicate]

theorem witness_StepPerformsTheDecodedRequest :
    decode { op := 0b00#2, buf := [1, 0, 0, 0], val := 0 } = .ok (.decodeI32 [1, 0, 0, 0] 0) := by decide

theorem witness_StepPerformsTheTableWord : decodeTableWord 8 0b10 = some (.encodeI32 [] 0) := by decide

theorem witness_IdleHoldsTheLatch : (holding (.err .illegalOp)).pending = [] := rfl

theorem witness_ResetLeavesNoField : Field.outVec 0 ≠ Field.rspValid := by decide

theorem witness_ReadMoveChangesNothingOrFaults :
    readField .outCount { rspValid := 1, rsp := some (.ok (.vec 0 [])), pending := [.reset] } = .ok (.count 0) ∧
      readField .outI32 { rspValid := 0, rsp := none, pending := [.reset] } = .error (.noValue .outI32) := by decide

theorem replicate_le_maxInBytes {n : Nat} (h : n ≤ 4) :
    (List.replicate n (0 : Byte)).length ≤ Config.maxInBytes := by
  rw [List.length_replicate]; exact Nat.le_trans h four_le_maxInBytes

/-- LEN 3 for the error clause, LEN 4 and LEN = MAX_IN_BYTES for the other. -/
theorem witness_DecodeI32Result :
    ((List.replicate 3 (0 : Byte)).length ≤ Config.maxInBytes ∧ (List.replicate 3 (0 : Byte)).length < 4) ∧
      ((List.replicate 4 (0 : Byte)).length ≤ Config.maxInBytes ∧ List.replicate 4 (0 : Byte) = 0 :: 0 :: 0 :: 0 :: []) ∧
      (List.replicate Config.maxInBytes (0 : Byte)).length ≤ Config.maxInBytes ∧
        List.replicate Config.maxInBytes (0 : Byte) =
          0 :: 0 :: 0 :: 0 :: List.replicate Config.capacityAboveFour.val 0 :=
  ⟨⟨replicate_le_maxInBytes (by decide), by decide⟩, ⟨replicate_le_maxInBytes (by decide), rfl⟩,
    by rw [List.length_replicate], rfl⟩

/-- LEN 1 and 3 for the error clause; LEN 0, 4 and the greatest multiple of 4 within capacity for the other. -/
theorem witness_DecodeI32VectorResult :
    ((List.replicate 1 (0 : Byte)).length ≤ Config.maxInBytes ∧ (List.replicate 1 (0 : Byte)).length % 4 ≠ 0) ∧
      ((List.replicate 3 (0 : Byte)).length ≤ Config.maxInBytes ∧ (List.replicate 3 (0 : Byte)).length % 4 ≠ 0) ∧
      (([] : List Byte).length ≤ Config.maxInBytes ∧ ([] : List Byte).length % 4 = 0) ∧
      ((List.replicate 4 (0 : Byte)).length ≤ Config.maxInBytes ∧ (List.replicate 4 (0 : Byte)).length % 4 = 0) ∧
      (List.replicate (4 * Config.maxVecCount) (0 : Byte)).length ≤ Config.maxInBytes ∧
        (List.replicate (4 * Config.maxVecCount) (0 : Byte)).length % 4 = 0 := by
  refine ⟨⟨replicate_le_maxInBytes (by decide), by decide⟩, ⟨replicate_le_maxInBytes (by decide), by decide⟩,
    ⟨Nat.zero_le _, rfl⟩, ⟨replicate_le_maxInBytes (by decide), by decide⟩, ?_, ?_⟩
  · rw [List.length_replicate]; unfold Config.maxVecCount; omega
  · rw [List.length_replicate]; omega

/-- The stop for capacity can be met at every instantiation, one byte beyond it. -/
theorem witness_overCapacity :
    Config.maxInBytes < (List.replicate (Config.maxInBytes + 1) (0 : Byte)).length := by
  rw [List.length_replicate]; omega

/-- The outermost hypotheses of OnlyOversizeDecodesHaveNoStep and ErrorsHaveExactlyTheseCauses. -/
theorem witness_OnlyOversizeDecodesHaveNoStep (t : State) :
    exec (.decodeI32 (List.replicate (Config.maxInBytes + 1) 0) 0) .reset ≠ .next t := by
  intro h
  have h' := ((ifWithin_next_iff _ _ _ _).1 h).1
  rw [List.length_replicate] at h'
  omega

/-- The selector branch of ChecksAreMadeInOrder, also beyond capacity (RS2). -/
theorem witness_ChecksAreMadeInOrder_selector :
    exec (select 0b11#2 (List.replicate (Config.maxInBytes + 1) 0) 0) .reset = .next (holding (.err .illegalOp)) := rfl

/-- The capacity branch, for both decoders, one byte beyond capacity. -/
theorem witness_ChecksAreMadeInOrder_capacity :
    exec (select 0b00#2 (List.replicate (Config.maxInBytes + 1) 0) 0) .reset = .fault .overCapacity ∧
      exec (select 0b01#2 (List.replicate (Config.maxInBytes + 1) 0) 0) .reset = .fault .overCapacity :=
  ⟨(ifWithin_fault_iff _ _ _ _).2 ⟨witness_overCapacity, rfl⟩, (ifWithin_fault_iff _ _ _ _).2 ⟨witness_overCapacity, rfl⟩⟩

/-- The length branch, at LEN 3 and LEN 1. -/
theorem witness_ChecksAreMadeInOrder_length :
    exec (select 0b00#2 [1, 2, 3] 0) .reset = .next (holding (.err .invalidLength)) ∧
      exec (select 0b01#2 [0] 0) .reset = .next (holding (.err .invalidLength)) :=
  ⟨(ifWithin_next_iff _ _ _ _).2 ⟨replicate_le_maxInBytes (n := 3) (by decide), rfl⟩,
    (ifWithin_next_iff _ _ _ _).2 ⟨replicate_le_maxInBytes (n := 1) (by decide), rfl⟩⟩

/-- The last branch, for each of the three operations. -/
theorem witness_ChecksAreMadeInOrder_completes :
    exec (select 0b00#2 [1, 0, 0, 0] 0) .reset = .next (holding (.ok (.i32 1))) ∧
      exec (select 0b01#2 [] 0) .reset = .next (holding (.ok (.vec 0 []))) ∧
      exec (select 0b10#2 [] 1) .reset = .next (holding (.ok (.bytes ⟨1, 0, 0, 0⟩))) :=
  ⟨(ifWithin_next_iff _ _ _ _).2 ⟨replicate_le_maxInBytes (n := 4) (by decide), by decide⟩,
    rfl, rfl⟩

/-- For ErrorsHaveExactlyTheseCauses, OperationsWriteOnlyTheLatch and RepeatingARequestIsIdempotent: a next state. -/
theorem witness_exec_next :
    exec (.reserved [] 0) .reset = .next (holding (.err .illegalOp)) ∧
      exec (.encodeI32 [] 1) .reset = .next (holding (.ok (.bytes ⟨1, 0, 0, 0⟩))) := ⟨rfl, rfl⟩

theorem witness_IgnoredFieldsHaveNoEffect : ([1, 2] : List Byte).length = ([3, 4] : List Byte).length := rfl

/-- Both clauses of BytesAreLittleEndian, and GroupIsTheSumOfItsBytes: the last group, the last byte. -/
theorem witness_BytesAreLittleEndian :
    4 * 0 + 3 < ([1, 2, 3, 4] : List Byte).length ∧ 3 < 4 ∧
      exec (.encodeI32 [] 1) .reset = .next (holding (.ok (.bytes ⟨1, 0, 0, 0⟩))) := ⟨by decide, by decide, rfl⟩

/-- DecodersAgreeOnTheFirstGroup, EncodeAfterVectorDecode: a buffer of one group. -/
theorem witness_DecodersAgreeOnTheFirstGroup :
    (List.replicate 4 (0 : Byte)).length ≤ Config.maxInBytes ∧ 4 ≤ (List.replicate 4 (0 : Byte)).length ∧
      (List.replicate 4 (0 : Byte)).length % 4 = 0 := ⟨replicate_le_maxInBytes (by decide), by decide, by decide⟩

/-- DecodeI32IsABijection, DecodeAfterEncode: the extremes of the range. -/
theorem witness_DecodeAfterEncode :
    ((-2 ^ 31 : Int) ≤ -2 ^ 31 ∧ (-2 ^ 31 : Int) < 2 ^ 31) ∧ ((-2 ^ 31 : Int) ≤ 2 ^ 31 - 1 ∧ (2 ^ 31 - 1 : Int) < 2 ^ 31) := by decide

theorem witness_EncodeAfterDecode : ([] : List Byte).length + 4 ≤ Config.maxInBytes := four_le_maxInBytes

theorem witness_EncodeAfterVectorDecode :
    ([] : List Byte).length ≤ Config.maxInBytes ∧ ([] : List Byte).length % 4 = 0 := ⟨Nat.zero_le _, rfl⟩

theorem witness_StepKeepsTheLatchLegal :
    (holding (.ok (.vec 1 [5]))).LatchWf ∧
      step { holding (.ok (.vec 1 [5])) with pending := [.reset] } = .next { rspValid := 0, rsp := none, pending := [] } := by
  refine ⟨⟨by decide, ?_⟩, rfl⟩
  intro x hx
  obtain rfl : Response.ok (.vec 1 [5]) = x := by simpa [holding] using hx
  refine ⟨rfl, ?_⟩
  have := four_le_maxInBytes
  unfold Config.maxVecCount
  omega

/-- A held response of each kind is in a legal latch. -/
theorem holding_LatchWf {x : Response} (h : x.Legal) : (holding x).LatchWf := by
  refine ⟨by simp [holding], fun y hy => ?_⟩
  obtain rfl : x = y := by simpa [holding] using hy
  exact h

/-- Each kind of response, with the last field its kind has. -/
theorem witness_OnlyTheHeldKindHasFields :
    ((holding (.ok (.i32 5))).LatchWf ∧ Field.outI32 ≠ .rspValid ∧ Field.outI32 ≠ .status ∧
      readField .outI32 (holding (.ok (.i32 5))) = .ok (.integer 5)) ∧
    ((holding (.ok (.vec 1 [5]))).LatchWf ∧ Field.outVec 0 ≠ .rspValid ∧ Field.outVec 0 ≠ .status ∧
      readField .outCount (holding (.ok (.vec 1 [5]))) = .ok (.count 1) ∧
      readField (.outVec 0) (holding (.ok (.vec 1 [5]))) = .ok (.integer 5)) ∧
    ((holding (.ok (.bytes ⟨1, 2, 3, 4⟩))).LatchWf ∧ Field.outByte 3 ≠ .rspValid ∧ Field.outByte 3 ≠ .status ∧
      readField (.outByte 3) (holding (.ok (.bytes ⟨1, 2, 3, 4⟩))) = .ok (.byte 4)) ∧
    (holding (.err .illegalOp)).LatchWf := by
  have h : (1 : Nat) ≤ Config.maxVecCount := by
    have := four_le_maxInBytes
    unfold Config.maxVecCount
    omega
  exact ⟨⟨holding_LatchWf trivial, by decide, by decide, by decide⟩,
    ⟨holding_LatchWf ⟨rfl, h⟩, by decide, by decide, by decide, by decide⟩,
    ⟨holding_LatchWf trivial, by decide, by decide, by decide⟩, holding_LatchWf trivial⟩

/-- The second clause of OnlyTheHeldKindHasFields: a field of another kind, the element past the last, any field of an
`Err`. -/
theorem witness_OnlyTheHeldKindHasFields_fault (v : FieldValue) :
    readField .outCount (holding (.ok (.bytes ⟨1, 2, 3, 4⟩))) ≠ .ok v ∧
      readField (.outVec 1) (holding (.ok (.vec 1 [5]))) ≠ .ok v ∧
      readField .outI32 (holding (.err .invalidLength)) ≠ .ok v := by
  simp [readField, fieldValue, holding, responseField, payloadField]

/-- A request within capacity. -/
theorem accepted_decode : RequestAccepted { op := 0b00#2, buf := [1, 0, 0, 0], val := 0 } :=
  ⟨by decide, fun _ => four_le_maxInBytes⟩

/-- A run with a read of RSP_VALID, a decode at the least capacity and a reset. -/
theorem witness_RunsAnswerEachRequestInOrder :
    EveryMoveHasAStep 0 none [.read .rspValid, .request { op := 0b00#2, buf := [1, 0, 0, 0], val := 0 }, .reset] := by
  refine ⟨fun r hr => ?_, fun before f later h => ?_⟩
  · obtain rfl : r = { op := 0b00#2, buf := [1, 0, 0, 0], val := 0 } := by simpa using hr
    exact accepted_decode
  · match before, h with
    | [], h =>
      obtain ⟨rfl, -⟩ : f = .rspValid ∧ _ := by simpa [eq_comm] using h
      exact ⟨.bit 0, rfl⟩
    | [_], h => simp at h
    | [_, _], h => simp at h
    | _ :: _ :: _ :: _, h => simp at h

/-- The clauses about a last read and a last reset: after an encode the host reads STATUS. -/
theorem witness_RunsAnswerEachRequestInOrder_read :
    readField .status (run { rspValid := 0, rsp := none, pending := [.request { op := 0b10#2, buf := [], val := 1 }] }).final =
      .ok (.status 0) := by decide

/-- After a reset taken as step 1, a read of STATUS has no step. -/
theorem witness_StuckRunsPerformNothingMore :
    (observe 1 { rspValid := 1, rsp := some (.err .illegalOp), pending := [.reset, .read .status, .reset] }).finish = .ended ∧
      step (observe 1 { rspValid := 1, rsp := some (.err .illegalOp), pending := [.reset, .read .status, .reset] }).final =
        .fault (.noValue .status) := ⟨rfl, rfl⟩

/-- A decode request one byte beyond capacity. -/
def oversizeRequest : Request := { op := 0b00#2, buf := List.replicate (Config.maxInBytes + 1) 0, val := 0 }

/-- LT5: an encode and then the oversize decode, with more moves after it. -/
def encodeThenOversize (later : List HostMove) : State :=
  { State.reset with pending := [.request { op := 0b10#2, buf := [], val := 2 }, .request oversizeRequest] ++ later }

/-- The oversize decode of StuckRunsPerformNothingMore, next after the encode. -/
theorem witness_StuckRunsPerformNothingMore_oversize (later : List HostMove) :
    (observe 1 (encodeThenOversize later)).finish = .ended ∧
      (observe 1 (encodeThenOversize later)).final.pending = .request oversizeRequest :: later ∧
      oversizeRequest.op = 0b00#2 ∧ Config.maxInBytes < oversizeRequest.len := ⟨rfl, rfl, rfl, witness_overCapacity⟩

/-- That request is one LEN can count at every instantiation but the largest, at which R25 says that every request is
within capacity. -/
theorem witness_StuckRunsPerformNothingMore_counted (h : Config.maxInBytes < 2 ^ 32 - 1) :
    oversizeRequest.len < 2 ^ 32 := by
  unfold oversizeRequest Request.len
  rw [List.length_replicate]
  omega

end Sys2Proof.Tests
end

section
/-! PROOFS. The fields of the latch while RSP_VALID = 0 (spec/10_state.md R16, R17, R19), and what a reset leaves of them
(R21). -/

namespace Sys2Proof.Proofs

open Sys2Proof.Machine

/-- R14, R19: RSP_VALID is a flag the host may read in every state. -/
@[simp] theorem readField_rspValid (s : State) : readField .rspValid s = .ok (.bit s.rspValid) := rfl

/-- R16, R21: every field but RSP_VALID is guarded by RSP_VALID = 1, whatever RSP holds. -/
theorem fieldValue_of_not_valid {s : State} {f : Field} (hs : s.rspValid ≠ 1#1) (hf : f ≠ .rspValid) :
    fieldValue s f = none := by
  cases f with
  | rspValid => exact absurd rfl hf
  | _ => exact if_neg hs

/-- R17: so the host's read of such a field faults. -/
theorem readField_of_not_valid {s : State} {f : Field} (hs : s.rspValid ≠ 1#1) (hf : f ≠ .rspValid) :
    readField f s = .error (.noValue f) := by
  obtain ⟨v, hv, -⟩ | ⟨-, hfault⟩ := readField_cases f s
  · rw [fieldValue_of_not_valid hs hf] at hv
    cases hv
  · exact hfault

/-- R73: a reset leaves RSP_VALID at 0, so no other field can be read after it. -/
theorem readField_resetLatch_of_ne {f : Field} (s : State) (hf : f ≠ .rspValid) :
    readField f (resetLatch s) = .error (.noValue f) :=
  readField_of_not_valid (by simp) hf

/-- Settles O13: at power-on and after a reset RSP_VALID = 0, which is the guard of every other field. -/
theorem resetLeavesNoField : Obligations.ResetLeavesNoField := by
  refine ⟨reset_rspValid, reset_rsp, ?_, fun f hf => ?_,
    fun s => ⟨resetLatch_rspValid s, resetLatch_rsp s, ?_, fun f hf => ?_⟩⟩
  · rw [readField_rspValid, reset_rspValid]
  · exact readField_of_not_valid (by simp) hf
  · rw [readField_rspValid, resetLatch_rspValid]
  · exact readField_resetLatch_of_ne s hf

end Sys2Proof.Proofs
end

section
/-! PROOFS. Least significant byte first: the bytes of a word, of a group of the input (spec/20_memory.md R26), and of the
value that encode_i32 leaves for the host (spec/41_encode.md R53). -/

namespace Sys2Proof.Proofs

open Sys2Proof.Machine

/-- R7: reading a pattern as an integer and writing that integer back loses nothing. -/
@[simp] theorem u32_s32 (u : Word) : u32 (s32 u) = u := by
  have hmod : (s32 u % 2 ^ 32).toNat = u.toNat := by
    unfold s32
    split <;> omega
  rw [u32, hmod, BitVec.ofNat_toNat, BitVec.setWidth_eq]

/-- The bits above an appended low byte are those of what it was appended to. -/
theorem extractLsb'_append_byte {w : Nat} (hi : BitVec w) (lo : Byte) (n : Nat) :
    (hi ++ lo).extractLsb' (n + 8) 8 = hi.extractLsb' n 8 := by
  rw [BitVec.extractLsb'_append_eq_of_le (Nat.le_add_left 8 n), Nat.add_sub_cancel]

/-- R26: splitting takes apart what four bytes, the first least significant, were put together to. -/
theorem splitWord_append (b0 b1 b2 b3 : Byte) :
    splitWord (b3 ++ b2 ++ b1 ++ b0) = { b0 := b0, b1 := b1, b2 := b2, b3 := b3 } := by
  rw [splitWord, ByteQuad.mk.injEq]
  refine ⟨?_, ?_, ?_, ?_⟩
  · exact BitVec.extractLsb'_append_eq_right
  · exact (extractLsb'_append_byte _ b0 0).trans BitVec.extractLsb'_append_eq_right
  · calc (b3 ++ b2 ++ b1 ++ b0).extractLsb' 16 8
        = (b3 ++ b2 ++ b1).extractLsb' 8 8 := extractLsb'_append_byte _ b0 8
      _ = (b3 ++ b2).extractLsb' 0 8 := extractLsb'_append_byte _ b1 0
      _ = b2 := BitVec.extractLsb'_append_eq_right
  · calc (b3 ++ b2 ++ b1 ++ b0).extractLsb' 24 8
        = (b3 ++ b2 ++ b1).extractLsb' 16 8 := extractLsb'_append_byte _ b0 16
      _ = (b3 ++ b2).extractLsb' 8 8 := extractLsb'_append_byte _ b1 8
      _ = b3 := BitVec.extractLsb'_append_eq_left

/-- R26, R53: byte j of a split word is its bits 8j+7 : 8j. -/
theorem quadByte_splitWord (u : Word) (j : Fin 4) :
    quadByte (splitWord u) j = u.extractLsb' (8 * j.val) 8 := by
  match j with
  | 0 | 1 | 2 | 3 => rfl

/-- R47: the four bytes of group k are bytes 4k .. 4k+3 of the buffer. -/
theorem splitWord_group (buf : List Byte) (k : Nat) (h : 4 * k + 3 < buf.length) :
    splitWord (group buf k h) =
      { b0 := buf[4 * k], b1 := buf[4 * k + 1], b2 := buf[4 * k + 2], b3 := buf[4 * k + 3] } :=
  splitWord_append ..

/-- R23, R26: byte j of group k stands at index 4k+j of the buffer. -/
theorem getElem?_eq_quadByte_group (buf : List Byte) (k : Nat) (h : 4 * k + 3 < buf.length) (j : Fin 4) :
    buf[4 * k + j.val]? = some (quadByte (splitWord (group buf k h)) j) := by
  rw [splitWord_group]
  match j with
  | 0 | 1 | 2 | 3 => exact List.getElem?_eq_getElem (by simp; omega)

/-- R53: encode_i32 holds the four bytes of VAL, whatever BUF is. -/
theorem exec_encodeI32 (buf : List Byte) (val : Word) (s : State) :
    exec (.encodeI32 buf val) s = .next (writeLatch (.ok (.bytes (splitWord val))) s) := by
  rw [exec, execEncodeI32, respond, u32_s32]

/-- R17, R19: while a BYTES response is held, the host reads byte j of it. -/
theorem readField_outByte_writeLatch (q : ByteQuad) (s : State) (j : Fin 4) :
    readField (.outByte j) (writeLatch (.ok (.bytes q)) s) = .ok (.byte (quadByte q j)) := rfl

/-- Settles O24: both clauses are about the bytes of a split word, of group k and of VAL. -/
theorem bytesAreLittleEndian : Obligations.BytesAreLittleEndian := by
  refine ⟨fun buf k h j hj => ?input, fun buf val s t hstep j => ?output⟩
  case input => rw [getElem?_eq_quadByte_group buf k h ⟨j, hj⟩, quadByte_splitWord]
  case output =>
    rw [exec_encodeI32] at hstep
    cases hstep
    rw [readField_outByte_writeLatch, quadByte_splitWord]

end Sys2Proof.Proofs
end

section
/-! PROOFS. The selector map (spec/30_encoding.md R37), the reserved selector (R38), and what each operation ignores
(R42). -/

namespace Sys2Proof.Proofs

open Sys2Proof.Machine

/-- R37: two bits spell no fifth selector. -/
theorem op_cases (op : BitVec 2) : op = 0b00#2 ∨ op = 0b01#2 ∨ op = 0b10#2 ∨ op = 0b11#2 := by
  revert op
  decide

/-- R36, R37: the request that spells an instruction decodes to it, if LEN can count its BUF (R39). -/
theorem decode_encode (i : Instr) (h : i.WellFormed) : decode (encode i) = .ok i := by
  cases i with
  | decodeI32 buf val => exact Laws.FieldEncoding.decodeI32 buf val h
  | decodeI32Vector buf val => exact Laws.FieldEncoding.decodeI32Vector buf val h
  | encodeI32 buf val => exact Laws.FieldEncoding.encodeI32 buf val h
  | reserved buf val => exact Laws.FieldEncoding.reserved buf val h

/-- R37: so a request decodes to the instruction whose OP, BUF and VAL it has. -/
theorem decode_eq_of_fields {r : Request} {i : Instr} (hr : r.WellFormed) (hop : r.op = opBits i)
    (hbuf : r.buf = i.buf) (hval : r.val = i.val) : decode r = .ok i := by
  obtain rfl : r = encode i := by
    cases r
    simp_all [encode]
  exact decode_encode i hr

/-- Settles O3: a request with the OP of a row is the one that row's instruction spells. -/
theorem selectorChoosesItsRow : Obligations.SelectorChoosesItsRow := fun r hr =>
  ⟨fun hop => decode_eq_of_fields hr hop rfl rfl, fun hop => decode_eq_of_fields hr hop rfl rfl,
    fun hop => decode_eq_of_fields hr hop rfl rfl, fun hop => decode_eq_of_fields hr hop rfl rfl, op_cases r.op⟩

/-- R25, R48: decode_i32 is the capacity check and then the response to BUF; VAL does not occur in it. -/
theorem exec_decodeI32 (buf : List Byte) (val : Word) (s : State) :
    exec (.decodeI32 buf val) s = ifWithin Config.maxInBytes buf (writeLatch (decodeI32Response buf) s) := by
  rw [exec, execDecodeI32, decodeI32Within, deliver_eq_writeLatch]

/-- R25, R49: decode_i32_vector is the capacity check and then the response to BUF; VAL does not occur in it. -/
theorem exec_decodeI32Vector (buf : List Byte) (val : Word) (s : State) :
    exec (.decodeI32Vector buf val) s =
      ifWithin Config.maxInBytes buf (writeLatch (decodeI32VectorResponse buf) s) := by
  rw [exec, execDecodeI32Vector, decodeI32VectorWithin, deliver_eq_writeLatch]

/-- R38: the reserved selector holds ILLEGAL_OP, whatever its operands are. -/
theorem exec_reserved (buf : List Byte) (val : Word) (s : State) :
    exec (.reserved buf val) s = .next (writeLatch (.err .illegalOp) s) := by
  rw [exec, execReserved, raise]

/-- Settles O18: writing the latch is all that the reserved selector does. -/
theorem reservedRaisesIllegalOp : Obligations.ReservedRaisesIllegalOp := fun buf val s =>
  exec_reserved buf val s

/-- R25: of BUF the capacity check sees only LEN. -/
theorem ifWithin_eq_of_length_eq {buf buf' : List Byte} (h : buf.length = buf'.length) (cap : Nat) (after : State) :
    ifWithin cap buf after = ifWithin cap buf' after := by
  rw [ifWithin, ifWithin, h]

/-- R48: from 4 bytes on, decode_i32 responds with the first four, whatever follows them. -/
theorem decodeI32Response_cons (b0 b1 b2 b3 : Byte) (tail : List Byte) :
    decodeI32Response (b0 :: b1 :: b2 :: b3 :: tail) = .ok (.i32 (b3 ++ b2 ++ b1 ++ b0)) :=
  decodeI32Response_of_long _ (by simp)

/-- R42: decode_i32 is the same for every VAL and for all bytes after the fourth, as long as LEN is the same. -/
theorem exec_decodeI32_tail (b0 b1 b2 b3 : Byte) {tail tail' : List Byte} (h : tail.length = tail'.length)
    (val val' : Word) (s : State) :
    exec (.decodeI32 (b0 :: b1 :: b2 :: b3 :: tail) val) s =
      exec (.decodeI32 (b0 :: b1 :: b2 :: b3 :: tail') val') s := by
  rw [exec_decodeI32, exec_decodeI32, decodeI32Response_cons, decodeI32Response_cons]
  exact ifWithin_eq_of_length_eq (by simp [h]) _ _

/-- Settles O23: what an operation ignores does not occur in the equation that says what it does. -/
theorem ignoredFieldsHaveNoEffect : Obligations.IgnoredFieldsHaveNoEffect := by
  refine ⟨fun b0 b1 b2 b3 tail tail' val val' s h => exec_decodeI32_tail b0 b1 b2 b3 h val val' s,
    fun buf buf' val val' s => ⟨?decodeI32, ?decodeI32Vector, ?encodeI32, ?reserved⟩⟩
  case decodeI32 => rw [exec_decodeI32, exec_decodeI32]
  case decodeI32Vector => rw [exec_decodeI32Vector, exec_decodeI32Vector]
  case encodeI32 => rw [exec_encodeI32, exec_encodeI32]
  case reserved => rw [exec_reserved, exec_reserved]

end Sys2Proof.Proofs
end

section
/-! PROOFS. The value of a group: the sum of its bytes and the sign (spec/40_decode.md R47), and the two decoders, which
respond with the value of the first group (R48) and of every group (R49). -/

namespace Sys2Proof.Proofs

open Sys2Proof.Machine

/-- An appended low byte is the remainder of division by 2^8, and what it was appended to is the quotient. -/
theorem toNat_append_byte {w : Nat} (hi : BitVec w) (lo : Byte) :
    (hi ++ lo).toNat = lo.toNat + hi.toNat * 2 ^ 8 := by
  rw [BitVec.toNat_append, ← Nat.shiftLeft_add_eq_or_of_lt lo.isLt, Nat.shiftLeft_eq, Nat.add_comm]

/-- R26, R47: the unsigned value of four bytes, the first least significant. -/
theorem toNat_append_bytes (b0 b1 b2 b3 : Byte) :
    (b3 ++ b2 ++ b1 ++ b0).toNat =
      b0.toNat + b1.toNat * 2 ^ 8 + b2.toNat * 2 ^ 16 + b3.toNat * 2 ^ 24 := by
  rw [toNat_append_byte, toNat_append_byte, toNat_append_byte]
  omega

/-- R7, R47: such a value is below 2^31 exactly when bit 7 of its last byte is 0. -/
theorem s32_append_bytes (b0 b1 b2 b3 : Byte) :
    s32 (b3 ++ b2 ++ b1 ++ b0) =
      if b3.toNat < 0x80 then ((b3 ++ b2 ++ b1 ++ b0).toNat : Int)
      else ((b3 ++ b2 ++ b1 ++ b0).toNat : Int) - 2 ^ 32 := by
  have hsign : (b3 ++ b2 ++ b1 ++ b0).toNat < 2 ^ 31 ↔ b3.toNat < 0x80 := by
    rw [toNat_append_bytes]
    omega
  simp only [s32, hsign]

/-- R25: within capacity, decode_i32 writes its response to the latch. -/
theorem exec_decodeI32_of_within {buf : List Byte} (h : buf.length ≤ Config.maxInBytes) (val : Word) (s : State) :
    exec (.decodeI32 buf val) s = .next (writeLatch (decodeI32Response buf) s) := by
  rw [exec_decodeI32, ifWithin_next_iff]
  exact ⟨h, rfl⟩

/-- R25: within capacity, decode_i32_vector writes its response to the latch. -/
theorem exec_decodeI32Vector_of_within {buf : List Byte} (h : buf.length ≤ Config.maxInBytes) (val : Word)
    (s : State) :
    exec (.decodeI32Vector buf val) s = .next (writeLatch (decodeI32VectorResponse buf) s) := by
  rw [exec_decodeI32Vector, ifWithin_next_iff]
  exact ⟨h, rfl⟩

/-- Settles O15: within capacity the latch holds decode_i32's response, which is the error below four bytes and the word
put together from the first four otherwise. -/
theorem decodeI32Result : Obligations.DecodeI32Result := by
  refine fun buf val s hcap => ⟨fun hshort => ?short, fun b0 b1 b2 b3 rest hbuf => ?long⟩
  case short =>
    rw [exec_decodeI32_of_within hcap, decodeI32Response_of_short buf hshort]
    rfl
  case long =>
    refine ⟨b3 ++ b2 ++ b1 ++ b0, ?_, toNat_append_bytes .., s32_append_bytes ..⟩
    rw [exec_decodeI32_of_within hcap, hbuf, decodeI32Response_cons]
    rfl

/-- R18, R49: element k of the groups is group k, read as the host's list of elements is. -/
theorem groups_getElem? {buf : List Byte} {n k : Nat} (h : 4 * n ≤ buf.length) (hk : k < n) :
    (groups buf n h)[k]? = some (group buf k (by omega)) := by
  rw [List.getElem?_eq_getElem (by rwa [groups_length]), groups_getElem]

/-- Settles O16: within capacity the latch holds decode_i32_vector's response, which is the error for a remainder and the
list of the groups otherwise; group k is put together from bytes 4k .. 4k+3. -/
theorem decodeI32VectorResult : Obligations.DecodeI32VectorResult := by
  refine fun buf val s hcap => ⟨fun hrem => ?remainder, fun hwhole => ?whole⟩
  case remainder =>
    rw [exec_decodeI32Vector_of_within hcap, decodeI32VectorResponse_of_remainder buf hrem]
    rfl
  case whole =>
    refine ⟨groups buf (buf.length / 4) (by omega), ?_, groups_length .., fun k hk => ?element⟩
    · rw [exec_decodeI32Vector_of_within hcap, decodeI32VectorResponse_of_groups buf hwhole]
      rfl
    case element =>
      have hin : 4 * k + 3 < buf.length := by omega
      exact ⟨group buf k hin, buf[4 * k], buf[4 * k + 1], buf[4 * k + 2], buf[4 * k + 3],
        groups_getElem? _ hk, List.getElem?_eq_getElem _, List.getElem?_eq_getElem _,
        List.getElem?_eq_getElem _, List.getElem?_eq_getElem _, toNat_append_bytes .., s32_append_bytes ..⟩

end Sys2Proof.Proofs
end

section
/-! PROOFS. The bytes of a signed value: byte j of VAL mod 2^32 as a number, and the sign in byte 3
(spec/41_encode.md R53). -/

namespace Sys2Proof.Proofs

open Sys2Proof.Machine

/-- R7: the integer a pattern stands for is, mod 2^32, its unsigned value. -/
theorem s32_emod (u : Word) : s32 u % 2 ^ 32 = u.toNat := by
  unfold s32
  split <;> omega

/-- R7: the patterns of the negative integers are those from 2^31 on. -/
theorem s32_neg_iff (u : Word) : s32 u < 0 ↔ 2 ^ 31 ≤ u.toNat := by
  unfold s32
  split <;> omega

/-- R26: the bits 8j+7 : 8j of a word, as a number. -/
theorem toNat_quadByte_splitWord (u : Word) (j : Fin 4) :
    (quadByte (splitWord u) j).toNat = u.toNat / 2 ^ (8 * j.val) % 2 ^ 8 := by
  rw [quadByte_splitWord, BitVec.extractLsb'_toNat, Nat.shiftRight_eq_div_pow]

/-- R53: byte j of the encoded value is byte j of the integer mod 2^32. -/
theorem toNat_quadByte_splitWord_eq_s32 (u : Word) (j : Fin 4) :
    ((quadByte (splitWord u) j).toNat : Int) = s32 u % 2 ^ 32 / 2 ^ (8 * j.val) % 2 ^ 8 := by
  rw [s32_emod, toNat_quadByte_splitWord]
  norm_cast

/-- R53: the most significant byte shows the sign. -/
theorem s32_neg_iff_splitWord (u : Word) : s32 u < 0 ↔ 0x80 ≤ (splitWord u).b3.toNat := by
  have htop : (splitWord u).b3.toNat = u.toNat / 2 ^ 24 % 2 ^ 8 := toNat_quadByte_splitWord u 3
  rw [s32_neg_iff, htop]
  omega

/-- Settles O17: the latch holds the bytes of the split VAL, each given by its place, the sign by the last. -/
theorem encodeI32Result : Obligations.EncodeI32Result := fun buf val s =>
  ⟨splitWord val, exec_encodeI32 buf val s,
    by simpa [quadByte] using toNat_quadByte_splitWord_eq_s32 val 0,
    toNat_quadByte_splitWord_eq_s32 val 1, toNat_quadByte_splitWord_eq_s32 val 2,
    toNat_quadByte_splitWord_eq_s32 val 3, s32_neg_iff_splitWord val⟩

end Sys2Proof.Proofs
end

section
/-! PROOFS. The causes of each error code (spec/60_exceptions.md R59), read off the response each operation leaves in the
latch; beyond capacity a decode leaves none (spec/20_memory.md R25). -/

namespace Sys2Proof.Proofs

open Sys2Proof.Machine

/-- R48, R59: decode_i32 responds with an error only to fewer than 4 bytes. -/
theorem decodeI32Response_eq_err_iff (buf : List Byte) (c : ErrCode) :
    decodeI32Response buf = .err c ↔ c = .invalidLength ∧ buf.length < 4 := by
  by_cases h : buf.length < 4
  · simp [decodeI32Response_of_short buf h, h, eq_comm]
  · simp [decodeI32Response_of_long buf (by omega), h]

/-- R49, R59: decode_i32_vector responds with an error only to a remainder. -/
theorem decodeI32VectorResponse_eq_err_iff (buf : List Byte) (c : ErrCode) :
    decodeI32VectorResponse buf = .err c ↔ c = .invalidLength ∧ buf.length % 4 ≠ 0 := by
  by_cases h : buf.length % 4 = 0
  · simp [decodeI32VectorResponse_of_groups buf h, h]
  · simp [decodeI32VectorResponse_of_remainder buf h, h, eq_comm]

/-- R25, R48: a next state of decode_i32 is within capacity and holds its response to BUF. -/
theorem exec_decodeI32_next_iff (buf : List Byte) (val : Word) (s t : State) :
    exec (.decodeI32 buf val) s = .next t ↔
      buf.length ≤ Config.maxInBytes ∧ t = writeLatch (decodeI32Response buf) s := by
  rw [exec_decodeI32, ifWithin_next_iff]

/-- R25, R49: a next state of decode_i32_vector is within capacity and holds its response to BUF. -/
theorem exec_decodeI32Vector_next_iff (buf : List Byte) (val : Word) (s t : State) :
    exec (.decodeI32Vector buf val) s = .next t ↔
      buf.length ≤ Config.maxInBytes ∧ t = writeLatch (decodeI32VectorResponse buf) s := by
  rw [exec_decodeI32Vector, ifWithin_next_iff]

/-- Settles O21: the latch holds the operation's response, so an error code has that response's causes; encode_i32's
response is none, and no decode beyond capacity answers a next state. -/
theorem errorsHaveExactlyTheseCauses : Obligations.ErrorsHaveExactlyTheseCauses := by
  refine ⟨fun i s t c hstep => ?causes, fun buf val s t hbeyond => ⟨fun hstep => ?scalar, fun hstep => ?vector⟩⟩
  case causes =>
    cases i with
    | decodeI32 buf val =>
      obtain ⟨-, rfl⟩ := (exec_decodeI32_next_iff buf val s t).1 hstep
      simp [decodeI32Response_eq_err_iff]
    | decodeI32Vector buf val =>
      obtain ⟨-, rfl⟩ := (exec_decodeI32Vector_next_iff buf val s t).1 hstep
      simp [decodeI32VectorResponse_eq_err_iff]
    | encodeI32 buf val =>
      rw [exec_encodeI32] at hstep
      cases hstep
      simp
    | reserved buf val =>
      rw [exec_reserved] at hstep
      cases hstep
      simp [eq_comm]
  case scalar =>
    obtain ⟨hwithin, -⟩ := (exec_decodeI32_next_iff buf val s t).1 hstep
    omega
  case vector =>
    obtain ⟨hwithin, -⟩ := (exec_decodeI32Vector_next_iff buf val s t).1 hstep
    omega

end Sys2Proof.Proofs
end

section
/-! PROOFS. The parameters (spec/00_scope.md R5), and the two's-complement integers: u32 and s32 are inverse to each other
on the range of 32 bits (R7). -/

namespace Sys2Proof.Proofs

open Sys2Proof.Machine

/-- Settles O1: the part of MAX_IN_BYTES above 4 is at most 2^32 - 5. -/
theorem capacityIsInTheSpecsRange : Obligations.CapacityIsInTheSpecsRange := by
  have hcap : Config.maxInBytes = Config.capacityAboveFour.val + 4 := rfl
  have hlt : Config.capacityAboveFour.val < 4294967292 := Config.capacityAboveFour.isLt
  exact ⟨four_le_maxInBytes, by omega, rfl⟩

/-- R7: the unsigned value of a pattern is the integer mod 2^32. -/
theorem toNat_u32 (v : Int) : ((u32 v).toNat : Int) = v % 2 ^ 32 := by
  rw [u32, BitVec.toNat_ofNat]
  omega

/-- R7: writing an integer of the range as a pattern and reading that pattern gives the integer back. -/
theorem s32_u32 {v : Int} (hlo : -2 ^ 31 ≤ v) (hhi : v < 2 ^ 31) : s32 (u32 v) = v := by
  have hpattern := toNat_u32 v
  unfold s32
  split <;> omega

/-- R7: s32 of a pattern lies in the range of a 32-bit integer. -/
theorem s32_bounds (u : Word) : -2 ^ 31 ≤ s32 u ∧ s32 u < 2 ^ 31 := by
  unfold s32
  split <;> omega

/-- The top bit of a non-empty bit vector tells whether its value is in the upper half. -/
theorem getLsbD_top_iff {n : Nat} (u : BitVec (n + 1)) : u.getLsbD n = true ↔ 2 ^ n ≤ u.toNat := by
  have htop : u.msb = u.getLsbD n := BitVec.msb_eq_getLsbD_last u
  rw [← htop, BitVec.msb_eq_decide, decide_eq_true_iff, Nat.add_sub_cancel]

/-- Settles O2: u32 is reduction mod 2^32, and bit 31 of a pattern is set exactly from 2^31 on. -/
theorem twosComplementIsABijection : Obligations.TwosComplementIsABijection := by
  refine ⟨fun v hlo hhi => ⟨?pattern, s32_u32 hlo hhi⟩,
    fun u => ⟨?integer, (s32_bounds u).1, (s32_bounds u).2, u32_s32 u⟩⟩
  case pattern =>
    rw [toNat_u32]
    split <;> omega
  case integer =>
    simp only [getLsbD_top_iff, s32, ← Nat.not_lt, ite_not]

end Sys2Proof.Proofs
end

section
/-! PROOFS. Requests and their rows of bits (spec/30_encoding.md R36, R37, R39, R43). The order of the fields in a row is the
model's choice (log entry 6). -/

namespace Sys2Proof.Proofs

open Sys2Proof.Machine

/-! ### Bytes as a row of bits -/

/-- As many bytes as were written are read back, and what came after them is left. -/
theorem takeBytes_bytesBits (bs : List Byte) (rest : Nat) :
    takeBytes bs.length (bytesBits bs + 256 ^ bs.length * rest) = (bs, rest) := by
  induction bs with
  | nil => simp [takeBytes, bytesBits]
  | cons b bs ih =>
    have hrow : bytesBits (b :: bs) + 256 ^ (b :: bs).length * rest =
        b.toNat + 256 * (bytesBits bs + 256 ^ bs.length * rest) := by
      rw [bytesBits, List.length_cons, pow_succ]
      ring
    have hlow : BitVec.ofNat 8 (b.toNat + 256 * (bytesBits bs + 256 ^ bs.length * rest)) = b :=
      BitVec.eq_of_toNat_eq (by rw [BitVec.toNat_ofNat]; omega)
    have hhigh : (b.toNat + 256 * (bytesBits bs + 256 ^ bs.length * rest)) / 256 =
        bytesBits bs + 256 ^ bs.length * rest := by omega
    rw [hrow, List.length_cons, takeBytes, hhigh, ih, hlow]

/-- Writing the bytes that were read, before what was left, gives the row back. -/
theorem bytesBits_takeBytes (n w : Nat) :
    bytesBits (takeBytes n w).1 + 256 ^ n * (takeBytes n w).2 = w := by
  induction n generalizing w with
  | zero => simp [takeBytes, bytesBits]
  | succ n ih =>
    have hlow : (BitVec.ofNat 8 w).toNat = w % 256 := BitVec.toNat_ofNat ..
    calc bytesBits (takeBytes (n + 1) w).1 + 256 ^ (n + 1) * (takeBytes (n + 1) w).2
        = w % 256 + 256 * (bytesBits (takeBytes n (w / 256)).1 + 256 ^ n * (takeBytes n (w / 256)).2) := by
          rw [takeBytes, bytesBits, hlow, pow_succ]
          ring
      _ = w := by rw [ih, Nat.mod_add_div]

/-! ### Requests as rows of bits -/

/-- R43: a request and what comes after it as one number, the variable part and the rest above bit 66. -/
theorem requestBits_add (r : Request) (rest : Nat) :
    requestBits r + 2 ^ r.bitLength * rest =
      r.op.toNat + 2 ^ 2 * r.len + 2 ^ 34 * r.val.toNat + 2 ^ 66 * (bytesBits r.buf + 256 ^ r.len * rest) := by
  rw [requestBits, Request.bitLength, pow_add, pow_mul]
  ring

/-- R43: the row of a request reads back as the request, and LEN tells where what comes after it begins. -/
theorem takeRequest_requestBits {r : Request} (hr : r.WellFormed) (rest : Nat) :
    takeRequest (requestBits r + 2 ^ r.bitLength * rest) = (r, rest) := by
  have hlen : r.len < 2 ^ 32 := hr
  rw [requestBits_add]
  generalize hbody : bytesBits r.buf + 256 ^ r.len * rest = body
  generalize hw : r.op.toNat + 2 ^ 2 * r.len + 2 ^ 34 * r.val.toNat + 2 ^ 66 * body = w
  have hop : BitVec.ofNat 2 w = r.op := BitVec.eq_of_toNat_eq (by rw [BitVec.toNat_ofNat]; omega)
  have hval : BitVec.ofNat 32 (w / 2 ^ 34) = r.val := BitVec.eq_of_toNat_eq (by rw [BitVec.toNat_ofNat]; omega)
  have hcount : w / 2 ^ 2 % 2 ^ 32 = r.buf.length := by unfold Request.len at *; omega
  have habove : w / 2 ^ 66 = bytesBits r.buf + 256 ^ r.buf.length * rest := by unfold Request.len at *; omega
  rw [takeRequest, hop, hval, hcount, habove, takeBytes_bytesBits]

/-- R43: LEN of the request read from a row is its LEN field. -/
theorem takeRequest_len (w : Nat) : (takeRequest w).1.len = w / 2 ^ 2 % 2 ^ 32 := takeBytes_length ..

/-- R39: so it is a request of the spec's, whatever the row. -/
theorem takeRequest_wellFormed (w : Nat) : (takeRequest w).1.WellFormed := by
  rw [Request.WellFormed, takeRequest_len]
  omega

/-- R43: the request read from a row, before what was left of it, is the row. -/
theorem requestBits_takeRequest (w : Nat) :
    requestBits (takeRequest w).1 + 2 ^ (takeRequest w).1.bitLength * (takeRequest w).2 = w := by
  have hbody : bytesBits (takeRequest w).1.buf + 256 ^ (w / 2 ^ 2 % 2 ^ 32) * (takeRequest w).2 = w / 2 ^ 66 :=
    bytesBits_takeBytes ..
  have hop : (takeRequest w).1.op.toNat = w % 2 ^ 2 := BitVec.toNat_ofNat ..
  have hval : (takeRequest w).1.val.toNat = w / 2 ^ 34 % 2 ^ 32 := BitVec.toNat_ofNat ..
  rw [requestBits_add, takeRequest_len, hbody, hop, hval]
  omega

/-! ### Requests and the instructions they spell -/

/-- R37: the selector map is undone by writing the instruction's OP, BUF and VAL. -/
theorem encode_select (r : Request) : encode (select r.op r.buf r.val) = r := by
  obtain ⟨op, buf, val⟩ := r
  obtain rfl | rfl | rfl | rfl := op_cases op <;> rfl

/-- R42: the selected instruction carries the request's BUF. -/
theorem select_buf (op : BitVec 2) (buf : List Byte) (val : Word) : (select op buf val).buf = buf := by
  obtain rfl | rfl | rfl | rfl := op_cases op <;> rfl

/-- R37, R39: a request of the spec's decodes to the instruction its OP selects. -/
theorem decode_of_wellFormed {r : Request} (hr : r.WellFormed) : decode r = .ok (select r.op r.buf r.val) :=
  if_pos hr

/-- R39: any other term is refused by name. -/
theorem decode_of_not_wellFormed {r : Request} (hr : ¬ r.WellFormed) : decode r = .error .lenTooLarge :=
  if_neg hr

/-- R39: LEN can count the BUF of the instruction a request of the spec's selects. -/
theorem select_wellFormed {r : Request} (hr : r.WellFormed) : (select r.op r.buf r.val).WellFormed := by
  rw [Instr.WellFormed, select_buf]
  exact hr

/-- The decoder of rows reads the request at the low end and decodes it. -/
theorem decodeBits_of_takeRequest {w rest : Nat} {r : Request} {i : Instr} (htake : takeRequest w = (r, rest))
    (hdecode : decode r = .ok i) : decodeBits w = .ok (i, rest) := by
  rw [decodeBits, htake, hdecode]

/-- Settles O5: the row reads back as the request, which decodes to the instruction it was written for. -/
theorem decodeBitsOfEncodeBits : Obligations.DecodeBitsOfEncodeBits := fun i rest hi =>
  decodeBits_of_takeRequest (takeRequest_requestBits (r := encode i) hi rest) (decode_encode i hi)

/-- Settles O7: the instruction is the one OP selects. -/
theorem encodeOfDecodedRequest : Obligations.EncodeOfDecodedRequest := fun r hr =>
  ⟨select r.op r.buf r.val, decode_of_wellFormed hr, select_wellFormed hr, encode_select r⟩

/-- Settles O6: every row begins with a request of the spec's, whose instruction spells it again. -/
theorem encodeBitsOfDecodeBits : Obligations.EncodeBitsOfDecodeBits := by
  intro w
  obtain ⟨i, hdecode, hi, hencode⟩ := encodeOfDecodedRequest (takeRequest w).1 (takeRequest_wellFormed w)
  refine ⟨i, (takeRequest w).2, decodeBits_of_takeRequest rfl hdecode, hi, ?_⟩
  rw [encodeBits, hencode, requestBits_takeRequest]

/-- R37: an opcode-table word, which gives only OP, decodes to the instruction OP selects, its other fields 0 and empty
(log entry 6). -/
theorem decodeTableWord_selector (op : BitVec 2) : decodeTableWord 8 op.toNat = some (select op [] 0) := by
  revert op
  decide

/-- Settles O4: each written-out request is the one that spells its instruction, each table word a selector. -/
theorem writtenOutWordsDecode : Obligations.WrittenOutWordsDecode :=
  ⟨decode_encode (.decodeI32Vector [1, 0, 0, 0, 2, 0, 0, 0, 3, 0, 0, 0] 0) (by decide),
    decode_encode (.encodeI32 [] 2) (by decide), decode_encode (.reserved [1, 0, 0, 0] 5) (by decide),
    decodeTableWord_selector 0b00#2, decodeTableWord_selector 0b01#2, decodeTableWord_selector 0b10#2,
    decodeTableWord_selector 0b11#2⟩

end Sys2Proof.Proofs
end

section
/-! PROOFS. Four bytes and the word they make: splitting and putting together are inverse to each other (spec/20_memory.md
R26), and so the codec's decode and encode are (spec/40_decode.md and spec/41_encode.md, the derived laws). -/

namespace Sys2Proof.Proofs

open Sys2Proof.Machine

/-! ### One group -/

/-- Settles O25: a group is its four bytes put together, and bit 7 of the last is its sign. -/
theorem groupIsTheSumOfItsBytes : Obligations.GroupIsTheSumOfItsBytes := by
  refine fun buf k h => ⟨buf[4 * k], buf[4 * k + 1], buf[4 * k + 2], buf[4 * k + 3],
    List.getElem?_eq_getElem _, List.getElem?_eq_getElem _, List.getElem?_eq_getElem _,
    List.getElem?_eq_getElem _, toNat_append_bytes .., ?sign⟩
  case sign =>
    rw [s32_neg_iff_splitWord, splitWord_group, getLsbD_top_iff]
    rfl

/-- The word of four bytes, the first least significant (R26, R47). -/
def joinQuad (q : ByteQuad) : Word := q.b3 ++ q.b2 ++ q.b1 ++ q.b0

/-- R26, R54: splitting takes apart what was put together. -/
@[simp] theorem splitWord_joinQuad (q : ByteQuad) : splitWord (joinQuad q) = q := splitWord_append ..

/-- R26, R55: putting together the bytes of a word gives the word. -/
@[simp] theorem joinQuad_splitWord (u : Word) : joinQuad (splitWord u) = u := by
  have hbyte (j : Fin 4) := toNat_quadByte_splitWord u j
  have h0 : (splitWord u).b0.toNat = u.toNat / 2 ^ 0 % 2 ^ 8 := hbyte 0
  have h1 : (splitWord u).b1.toNat = u.toNat / 2 ^ 8 % 2 ^ 8 := hbyte 1
  have h2 : (splitWord u).b2.toNat = u.toNat / 2 ^ 16 % 2 ^ 8 := hbyte 2
  have h3 : (splitWord u).b3.toNat = u.toNat / 2 ^ 24 % 2 ^ 8 := hbyte 3
  apply BitVec.eq_of_toNat_eq
  rw [joinQuad, toNat_append_bytes, h0, h1, h2, h3]
  omega

/-- R7: a quadruple is read as `v` exactly if it is the bytes of `v`'s pattern. -/
theorem s32_joinQuad_eq_iff {v : Int} (hlo : -2 ^ 31 ≤ v) (hhi : v < 2 ^ 31) (q : ByteQuad) :
    s32 (joinQuad q) = v ↔ q = splitWord (u32 v) := by
  constructor
  · rintro rfl
    rw [u32_s32, splitWord_joinQuad]
  · rintro rfl
    rw [joinQuad_splitWord, s32_u32 hlo hhi]

/-! ### decode_i32 and encode_i32 -/

/-- R48: decode_i32 responds to four bytes with the word they make. -/
theorem exec_decodeI32_quadList (q : ByteQuad) (val : Word) (s : State) :
    exec (.decodeI32 (quadList q) val) s = .next (writeLatch (.ok (.i32 (joinQuad q))) s) :=
  exec_decodeI32_of_within (buf := quadList q) four_le_maxInBytes val s

/-- R17, R19: while an I32 response is held, the host reads its integer. -/
theorem readField_outI32_writeLatch (w : Word) (s : State) :
    readField .outI32 (writeLatch (.ok (.i32 w)) s) = .ok (.integer (s32 w)) := rfl

/-- R48, R53: encode_i32 answers `q` to a word exactly if `q` is the word's bytes. -/
theorem exec_encodeI32_eq_iff (u : Word) (q : ByteQuad) :
    (∀ (buf : List Byte) (s : State),
        exec (.encodeI32 buf u) s = .next { s with rspValid := 1#1, rsp := some (.ok (.bytes q)) }) ↔
      splitWord u = q := by
  constructor
  · intro h
    have h' := (exec_encodeI32 [] u State.reset).symm.trans (h [] State.reset)
    simpa [writeLatch] using h'
  · rintro rfl buf s
    exact exec_encodeI32 buf u s

/-- R19, R48: the host reads `v` after decode_i32 of `q` exactly if `q` makes the word of `v`. -/
theorem decodeI32_reads_iff (q : ByteQuad) (v : Int) :
    (∀ (val : Word) (s : State), ∃ t : State,
        exec (.decodeI32 (quadList q) val) s = .next t ∧ readField .outI32 t = .ok (.integer v)) ↔
      s32 (joinQuad q) = v := by
  constructor
  · intro h
    obtain ⟨t, hstep, hread⟩ := h 0 State.reset
    rw [exec_decodeI32_quadList] at hstep
    cases hstep
    simpa [readField_outI32_writeLatch] using hread
  · rintro rfl val s
    exact ⟨_, exec_decodeI32_quadList q val s, readField_outI32_writeLatch ..⟩

/-- Settles O27: the quadruple that is read as `v` is the bytes of `v`'s pattern. -/
theorem decodeI32IsABijection : Obligations.DecodeI32IsABijection := by
  refine ⟨fun q val s => ?value, fun v hlo hhi => ?quadruple⟩
  case value =>
    obtain ⟨hlo, hhi⟩ := s32_bounds (joinQuad q)
    exact ⟨_, _, hlo, hhi, exec_decodeI32_quadList q val s, readField_outI32_writeLatch ..⟩
  case quadruple =>
    simp only [decodeI32_reads_iff, s32_joinQuad_eq_iff hlo hhi]
    exact existsUnique_eq

/-- Settles O28: the integer whose bytes are `q` is the one `q` is read as. -/
theorem encodeI32IsABijection : Obligations.EncodeI32IsABijection := by
  intro q
  obtain ⟨hlo, hhi⟩ := s32_bounds (joinQuad q)
  refine ⟨s32 (joinQuad q), ⟨hlo, hhi, ?_⟩, fun v ⟨hvlo, hvhi, hv⟩ => ?_⟩
  · rw [exec_encodeI32_eq_iff, u32_s32, splitWord_joinQuad]
  · rw [exec_encodeI32_eq_iff] at hv
    exact ((s32_joinQuad_eq_iff hvlo hvhi q).2 hv.symm).symm

/-- Settles O29: the bytes of `v`'s pattern are read as `v`. -/
theorem decodeAfterEncode : Obligations.DecodeAfterEncode := fun v hlo hhi =>
  ⟨splitWord (u32 v), (exec_encodeI32_eq_iff _ _).2 rfl,
    (decodeI32_reads_iff _ _).2 ((s32_joinQuad_eq_iff hlo hhi _).2 rfl)⟩

/-- Settles O30: the word decode_i32 answers is that of the first four bytes, and splits into them. -/
theorem encodeAfterDecode : Obligations.EncodeAfterDecode := fun b0 b1 b2 b3 tail val s h =>
  ⟨b3 ++ b2 ++ b1 ++ b0, exec_decodeI32_of_within (buf := b0 :: b1 :: b2 :: b3 :: tail) h val s,
    (exec_encodeI32_eq_iff _ _).2 (splitWord_append b0 b1 b2 b3)⟩

/-! ### decode_i32_vector -/

/-- R49: the groups of a buffer are its first four bytes' word and the groups of what follows them. -/
theorem groups_cons (b0 b1 b2 b3 : Byte) (tail : List Byte) (n : Nat) (h : 4 * n ≤ tail.length) :
    groups (b0 :: b1 :: b2 :: b3 :: tail) (n + 1) (by simp; omega) = (b3 ++ b2 ++ b1 ++ b0) :: groups tail n h := by
  rw [groups, List.ofFn_succ]
  rfl

/-- R56: the bytes of a buffer's groups, in order, are the buffer's bytes. -/
theorem flatMap_quadList_groups (buf : List Byte) (n : Nat) (h : 4 * n ≤ buf.length) :
    ((groups buf n h).map splitWord).flatMap quadList = buf.take (4 * n) := by
  induction n generalizing buf with
  | zero => rfl
  | succ n ih =>
    match buf, h with
    | b0 :: b1 :: b2 :: b3 :: tail, h =>
      have htail : 4 * n ≤ tail.length := by simp at h; omega
      rw [groups_cons b0 b1 b2 b3 tail n htail, List.map_cons, List.flatMap_cons, splitWord_append, ih tail htail]
      rfl

/-- R49: within capacity, decode_i32_vector answers a buffer of whole groups with their words. -/
theorem exec_decodeI32Vector_of_groups {buf : List Byte} (hcap : buf.length ≤ Config.maxInBytes)
    (hwhole : buf.length % 4 = 0) (val : Word) (s : State) :
    exec (.decodeI32Vector buf val) s =
      .next (writeLatch (.ok (.vec (buf.length / 4) (groups buf (buf.length / 4) (by omega)))) s) := by
  rw [exec_decodeI32Vector_of_within hcap, decodeI32VectorResponse_of_groups buf hwhole]

/-- Settles O31: each element is encoded to its bytes, which in order are the buffer's. -/
theorem encodeAfterVectorDecode : Obligations.EncodeAfterVectorDecode := by
  intro buf val s hcap hwhole
  have hn : 4 * (buf.length / 4) = buf.length := by omega
  refine ⟨groups buf (buf.length / 4) hn.le, (groups buf (buf.length / 4) hn.le).map splitWord,
    exec_decodeI32Vector_of_groups hcap hwhole val s, ?bytes, ?buffer⟩
  case bytes =>
    simp only [exec_encodeI32_eq_iff, List.forall₂_map_right_iff, List.forall₂_same, implies_true]
  case buffer => rw [flatMap_quadList_groups, hn, List.take_length]

/-- Settles O26: both decoders answer the word of the first four bytes, the vector decode before the others. -/
theorem decodersAgreeOnTheFirstGroup : Obligations.DecodersAgreeOnTheFirstGroup := by
  intro buf val val' s s' hcap hfour hwhole
  match buf, hfour with
  | b0 :: b1 :: b2 :: b3 :: tail, _ =>
    have htail : 4 * (tail.length / 4) ≤ tail.length := Nat.mul_div_le ..
    refine ⟨b3 ++ b2 ++ b1 ++ b0, groups tail (tail.length / 4) htail, ?vector,
      exec_decodeI32_of_within hcap val' s', fun hlen => ?one⟩
    case vector =>
      have hcount : (b0 :: b1 :: b2 :: b3 :: tail).length / 4 = tail.length / 4 + 1 :=
        Nat.add_div_right tail.length (Nat.succ_pos 3)
      have hgroups : groups (b0 :: b1 :: b2 :: b3 :: tail) ((b0 :: b1 :: b2 :: b3 :: tail).length / 4) (by omega) =
          (b3 ++ b2 ++ b1 ++ b0) :: groups tail (tail.length / 4) htail := by
        simp only [hcount, groups_cons b0 b1 b2 b3 tail _ htail]
      rw [exec_decodeI32Vector_of_groups hcap hwhole, hgroups]
      rfl
    case one =>
      obtain rfl : tail = [] := by simpa using hlen
      rfl

end Sys2Proof.Proofs
end

section
/-! PROOFS. The response to an instruction, which no state enters (spec/10_state.md R20): the order of its checks
(spec/60_exceptions.md R61), the one stop (spec/20_memory.md R25), and the frame. -/

namespace Sys2Proof.Proofs

open Sys2Proof.Machine

/-! ### The response as a function of the instruction -/

/-- The response an instruction writes, `none` where it has no step (R25). -/
def answer : Instr → Option Response
  | .decodeI32 buf _ => if buf.length ≤ Config.maxInBytes then some (decodeI32Response buf) else none
  | .decodeI32Vector buf _ => if buf.length ≤ Config.maxInBytes then some (decodeI32VectorResponse buf) else none
  | .encodeI32 _ val => some (.ok (.bytes (splitWord val)))
  | .reserved _ _ => some (.err .illegalOp)

/-- R20, R25: `exec` writes the instruction's response to the latch, or is stuck where it has none. -/
theorem exec_eq_answer (i : Instr) (s : State) :
    exec i s = (answer i).elim (.fault .overCapacity) fun x => .next (writeLatch x s) := by
  cases i with
  | decodeI32 buf val =>
    rw [exec_decodeI32, ifWithin, answer]
    split <;> rfl
  | decodeI32Vector buf val =>
    rw [exec_decodeI32Vector, ifWithin, answer]
    split <;> rfl
  | encodeI32 buf val => exact exec_encodeI32 buf val s
  | reserved buf val => exact exec_reserved buf val s

theorem exec_of_answer_eq_some {i : Instr} {x : Response} (h : answer i = some x) (s : State) :
    exec i s = .next (writeLatch x s) := by
  rw [exec_eq_answer, h, Option.elim_some]

theorem exec_of_answer_eq_none {i : Instr} (h : answer i = none) (s : State) :
    exec i s = .fault .overCapacity := by
  rw [exec_eq_answer, h, Option.elim_none]

/-- R25: a next state is the old one with the instruction's response in the latch. -/
theorem exec_next_iff (i : Instr) (s t : State) :
    exec i s = .next t ↔ ∃ x, answer i = some x ∧ t = writeLatch x s := by
  rw [exec_eq_answer]
  cases answer i <;> simp [eq_comm]

/-- R25: without a next state, the instruction has no response. -/
theorem exec_ne_next_iff (i : Instr) (s : State) : (∀ t, exec i s ≠ .next t) ↔ answer i = none := by
  rw [exec_eq_answer]
  cases answer i <;> simp

/-- R25: exactly the decodes beyond capacity have no response. -/
theorem answer_eq_none_iff (i : Instr) :
    answer i = none ↔ ∃ (buf : List Byte) (val : Word),
      (i = .decodeI32 buf val ∨ i = .decodeI32Vector buf val) ∧ Config.maxInBytes < buf.length := by
  cases i <;> simp [answer]

/-- Settles O20: no next state, no response and a decode beyond capacity are the same. -/
theorem onlyOversizeDecodesHaveNoStep : Obligations.OnlyOversizeDecodesHaveNoStep := fun i s =>
  ⟨(exec_ne_next_iff i s).trans (answer_eq_none_iff i),
    fun h => exec_of_answer_eq_none ((exec_ne_next_iff i s).1 h) s⟩

/-- Settles O22: writing the latch is all that an accepted instruction does. -/
theorem operationsWriteOnlyTheLatch : Obligations.OperationsWriteOnlyTheLatch := by
  intro i s t hstep
  obtain ⟨x, -, rfl⟩ := (exec_next_iff i s t).1 hstep
  exact ⟨rfl, rfl, x, rfl⟩

/-- Settles O37: the same response is written over itself. -/
theorem repeatingARequestIsIdempotent : Obligations.RepeatingARequestIsIdempotent := by
  intro i s t hstep
  obtain ⟨x, hx, rfl⟩ := (exec_next_iff i s t).1 hstep
  rw [exec_of_answer_eq_some hx, writeLatch_writeLatch]

/-! ### The order of the checks -/

/-- R25, R61: beyond capacity decode_i32 is stuck before its length is checked. -/
theorem exec_decodeI32_of_beyond {buf : List Byte} (h : Config.maxInBytes < buf.length) (val : Word) (s : State) :
    exec (.decodeI32 buf val) s = .fault .overCapacity :=
  exec_of_answer_eq_none ((answer_eq_none_iff _).2 ⟨buf, val, .inl rfl, h⟩) s

/-- R25, R61: so is decode_i32_vector. -/
theorem exec_decodeI32Vector_of_beyond {buf : List Byte} (h : Config.maxInBytes < buf.length) (val : Word)
    (s : State) : exec (.decodeI32Vector buf val) s = .fault .overCapacity :=
  exec_of_answer_eq_none ((answer_eq_none_iff _).2 ⟨buf, val, .inr rfl, h⟩) s

/-- R48, R61: decode_i32's response is the error below 4 bytes, and Ok otherwise. -/
theorem decodeI32Response_cases (buf : List Byte) :
    ∃ p, decodeI32Response buf = if buf.length < 4 then .err .invalidLength else .ok p := by
  by_cases h : buf.length < 4
  · exact ⟨.i32 0, by rw [decodeI32Response_of_short buf h, if_pos h]⟩
  · exact ⟨_, by rw [decodeI32Response_of_long buf (by omega), if_neg h]⟩

/-- R49, R61: decode_i32_vector's response is the error for a remainder, and Ok otherwise. -/
theorem decodeI32VectorResponse_cases (buf : List Byte) :
    ∃ p, decodeI32VectorResponse buf = if buf.length % 4 ≠ 0 then .err .invalidLength else .ok p := by
  by_cases h : buf.length % 4 = 0
  · exact ⟨_, by rw [decodeI32VectorResponse_of_groups buf h, if_neg (not_not.2 h)]⟩
  · exact ⟨.i32 0, by rw [decodeI32VectorResponse_of_remainder buf h, if_pos h]⟩

/-- Settles O19: by OP; a decode checks the capacity and then the length, the other two check neither. -/
theorem checksAreMadeInOrder : Obligations.ChecksAreMadeInOrder := by
  intro op buf val s
  obtain rfl | rfl | rfl | rfl := op_cases op
  case inl =>
    obtain ⟨p, hp⟩ := decodeI32Response_cases buf
    refine ⟨p, ?_⟩
    by_cases hcap : Config.maxInBytes < buf.length
    · simp [select, exec_decodeI32_of_beyond hcap, hcap]
    · rw [select, if_pos rfl, exec_decodeI32_of_within (not_lt.1 hcap), hp]
      by_cases hlen : buf.length < 4 <;> simp [hcap, hlen, writeLatch]
  case inr.inl =>
    obtain ⟨p, hp⟩ := decodeI32VectorResponse_cases buf
    refine ⟨p, ?_⟩
    by_cases hcap : Config.maxInBytes < buf.length
    · simp [select, exec_decodeI32Vector_of_beyond hcap, hcap]
    · rw [select, if_neg (by decide), if_pos rfl, exec_decodeI32Vector_of_within (not_lt.1 hcap), hp]
      by_cases hlen : buf.length % 4 = 0 <;> simp [hcap, hlen, writeLatch]
  case inr.inr.inl => exact ⟨.bytes (splitWord val), exec_encodeI32 buf val s⟩
  case inr.inr.inr => exact ⟨.i32 0, exec_reserved buf val s⟩

end Sys2Proof.Proofs
end

section
/-! PROOFS. One step by the host's next move (spec/60_exceptions.md R72), and what every step keeps of the latch
(spec/10_state.md R11, R19, R20). -/

namespace Sys2Proof.Proofs

open Sys2Proof.Machine

/-! ### The step for each move -/

/-- R33: the next move is taken and performed, and the later ones are left. -/
theorem step_cons (v : BitVec 1) (x : Option Response) (m : HostMove) (rest : List HostMove) :
    step { rspValid := v, rsp := x, pending := m :: rest } =
      performMove m { rspValid := v, rsp := x, pending := rest } := rfl

/-- The step after presenting a request performs it on the state before. -/
theorem step_presentRequest (r : Request) (s : State) : step (presentRequest r s) = performRequest r s := rfl

/-- R37: a request of the spec's performs the instruction its OP selects. -/
theorem performRequest_of_wellFormed {r : Request} (hr : r.WellFormed) (s : State) :
    performRequest r s = exec (select r.op r.buf r.val) s :=
  performRequest_of_decode (decode_of_wellFormed hr) s

/-- R39: any other term is refused by name. -/
theorem performRequest_of_not_wellFormed {r : Request} (hr : ¬ r.WellFormed) (s : State) :
    performRequest r s = .refused (.notARequest .lenTooLarge) := by
  rw [performRequest, decode_of_not_wellFormed hr]

/-- R25, R39: a request that answers a next state wrote a legal response. -/
theorem performRequest_next {r : Request} {s t : State} (h : performRequest r s = .next t) :
    ∃ x : Response, x.Legal ∧ t = writeLatch x s := by
  by_cases hr : r.WellFormed
  · rw [performRequest_of_wellFormed hr] at h
    obtain ⟨x, hx, hnext⟩ | hfault := exec_cases (select r.op r.buf r.val) s
    · rw [hnext] at h
      cases h
      exact ⟨x, hx, rfl⟩
    · rw [hfault] at h
      cases h
  · rw [performRequest_of_not_wellFormed hr] at h
    cases h

/-- R17, R30: a read that answers a next state changed nothing. -/
theorem performRead_next {f : Field} {s t : State} (h : performRead f s = .next t) : t = s := by
  obtain ⟨-, -, hnext⟩ | ⟨-, hfault⟩ := performRead_cases f s
  · rw [hnext] at h
    cases h
    rfl
  · rw [hfault] at h
    cases h

/-- What a step that answers a next state did, by the host's next move: nothing, or it wrote a legal response, or read, or
reset. -/
theorem step_next_cases {s t : State} (h : step s = .next t) :
    (s.pending = [] ∧ t = s) ∨ ∃ rest,
      (∃ r x, s.pending = .request r :: rest ∧ Response.Legal x ∧ t = writeLatch x { s with pending := rest }) ∨
      (∃ f, s.pending = .read f :: rest ∧ t = { s with pending := rest }) ∨
      (s.pending = .reset :: rest ∧ t = resetLatch { s with pending := rest }) := by
  obtain ⟨hnil, hidle⟩ | ⟨m, rest, hcons, hmove⟩ := step_cases s
  · rw [hidle] at h
    cases h
    exact .inl ⟨hnil, rfl⟩
  · rw [hmove] at h
    refine .inr ⟨rest, ?_⟩
    cases m with
    | request r =>
      obtain ⟨x, hx, ht⟩ := performRequest_next h
      exact .inl ⟨r, x, hcons, hx, ht⟩
    | read f => exact .inr (.inl ⟨f, hcons, performRead_next h⟩)
    | reset =>
      cases h
      exact .inr (.inr ⟨hcons, rfl⟩)

/-- Settles O9: the decoder's instruction is what the taken request performs. -/
theorem stepPerformsTheDecodedRequest : Obligations.StepPerformsTheDecodedRequest := fun valid held r rest i h => by
  rw [step_cons, performMove, performRequest_of_decode h]

/-- A table word's instruction is what its request decodes to. -/
theorem decode_tableRequest {nbits w : Nat} {i : Instr} (h : decodeTableWord nbits w = some i) :
    decode (tableRequest nbits w) = .ok i := by
  unfold decodeTableWord at h
  split at h
  · cases h
    assumption
  · cases h

/-- Settles O10: the presented request is the table word's. -/
theorem stepPerformsTheTableWord : Obligations.StepPerformsTheTableWord := fun s nbits w i h => by
  rw [State.withFetchWord, step_presentRequest, performRequest_of_decode (decode_tableRequest h)]

/-- Settles O11: with no move to take, the idle codec is the only case of a step. -/
theorem idleHoldsTheLatch : Obligations.IdleHoldsTheLatch := by
  intro s hs
  obtain ⟨-, hidle⟩ | ⟨m, rest, hcons, -⟩ := step_cases s
  · exact hidle
  · rw [hs] at hcons
    cases hcons

/-- Settles O12: the taken reset empties the latch. -/
theorem resetMoveEmptiesTheLatch : Obligations.ResetMoveEmptiesTheLatch := fun valid held rest =>
  step_cons valid held .reset rest

/-- R17, R30: a read of a field that has a value changes nothing. -/
theorem performRead_of_value {f : Field} {s : State} {v : FieldValue} (h : readField f s = .ok v) :
    performRead f s = .next s := by
  rw [performRead, h]

/-- R17: a read of a field that has none faults. -/
theorem performRead_of_error {f : Field} {s : State} {e : Fault} (h : readField f s = .error e) :
    performRead f s = .fault e := by
  rw [performRead, h]

/-- R17: the only fault of a read names the field. -/
theorem readField_error {f : Field} {s : State} {e : Fault} (h : readField f s = .error e) : e = .noValue f := by
  obtain ⟨v, -, hok⟩ | ⟨-, hfault⟩ := readField_cases f s
  · rw [hok] at h
    cases h
  · rw [hfault] at h
    cases h
    rfl

/-- Settles O14: the taken read answers the state it was made in, or the field's fault. -/
theorem readMoveChangesNothingOrFaults : Obligations.ReadMoveChangesNothingOrFaults := by
  refine fun valid held f rest => ⟨fun v hread => ?value, fun e hread => ?fault⟩
  case value => rw [step_cons, performMove, performRead_of_value hread]
  case fault =>
    obtain rfl := readField_error hread
    exact ⟨rfl, by rw [step_cons, performMove, performRead_of_error hread]⟩

/-! ### What every step keeps -/

/-- R15, R19: a legal response makes a legal latch. -/
theorem writeLatch_latchWf {x : Response} (hx : x.Legal) (s : State) : (writeLatch x s).LatchWf := by
  refine ⟨by simp, fun y hy => ?_⟩
  rw [writeLatch_rsp, Option.some.injEq] at hy
  exact hy ▸ hx

/-- R21, R73: an emptied latch is legal. -/
theorem resetLatch_latchWf (s : State) : (resetLatch s).LatchWf := by
  refine ⟨by simp, fun y hy => ?_⟩
  rw [resetLatch_rsp] at hy
  cases hy

/-- Settles O32: the latch is left as it was, written with a legal response, or emptied. -/
theorem stepKeepsTheLatchLegal : Obligations.StepKeepsTheLatchLegal := by
  intro s t hs hstep
  obtain ⟨-, rfl⟩ | ⟨rest, ⟨-, x, -, hx, rfl⟩ | ⟨-, -, rfl⟩ | ⟨-, rfl⟩⟩ := step_next_cases hstep
  · exact hs
  · exact writeLatch_latchWf hx _
  · exact hs
  · exact resetLatch_latchWf _

/-- Settles O33: the reset state's latch is empty. -/
theorem resetLatchIsLegal : Obligations.ResetLatchIsLegal := resetLatch_latchWf State.reset

/-- Settles O36: the request is refused, or its instruction's response, or that it has none, decides in every state. -/
theorem responseDependsOnTheRequestAlone : Obligations.ResponseDependsOnTheRequestAlone := by
  intro r v v' x x' p p'
  by_cases hr : r.WellFormed
  · rw [step_cons, step_cons, performMove, performMove, performRequest_of_wellFormed hr,
      performRequest_of_wellFormed hr]
    cases hanswer : answer (select r.op r.buf r.val) with
    | none => exact .inr (.inl ⟨exec_of_answer_eq_none hanswer _, exec_of_answer_eq_none hanswer _⟩)
    | some y => exact .inl ⟨y, exec_of_answer_eq_some hanswer _, exec_of_answer_eq_some hanswer _⟩
  · exact .inr (.inr ⟨hr, performRequest_of_not_wellFormed hr _, performRequest_of_not_wellFormed hr _⟩)

end Sys2Proof.Proofs
end

section
/-! PROOFS. The fields of a held response: STATUS (spec/10_state.md R16), and the payload's fields by its kind (R17). -/

namespace Sys2Proof.Proofs

open Sys2Proof.Machine

/-! ### STATUS -/

/-- R16: STATUS is read through the held response. -/
theorem responseField_status (x : Response) : responseField x .status = some (.status (responseStatus x)) := by
  cases x <;> rfl

/-- R16, R21: every field but RSP_VALID is guarded by RSP_VALID = 1 and read through the response held. -/
theorem fieldValue_of_ne_rspValid {f : Field} (hf : f ≠ .rspValid) (s : State) :
    fieldValue s f = if s.rspValid = 1#1 then s.rsp.bind fun x => responseField x f else none := by
  cases f with
  | rspValid => exact absurd rfl hf
  | _ => rfl

/-- R16: while RSP_VALID = 1, the field is that of the response held. -/
theorem fieldValue_of_held {s : State} {x : Response} {f : Field} (hv : s.rspValid = 1#1) (hx : s.rsp = some x)
    (hf : f ≠ .rspValid) : fieldValue s f = responseField x f := by
  rw [fieldValue_of_ne_rspValid hf, if_pos hv, hx, Option.bind_some]

/-- R17: a read gives exactly the value the field has. -/
theorem readField_ok_iff (f : Field) (s : State) (v : FieldValue) :
    readField f s = .ok v ↔ fieldValue s f = some v := by
  obtain ⟨w, hw, hread⟩ | ⟨hnone, hread⟩ := readField_cases f s
  · simp [hw, hread]
  · simp [hnone, hread]

/-- R17: without a value to give, a read faults with the field. -/
theorem readField_of_no_value {f : Field} {s : State} (h : ∀ v, readField f s ≠ .ok v) :
    readField f s = .error (.noValue f) := by
  obtain ⟨v, -, hread⟩ | ⟨-, hread⟩ := readField_cases f s
  · exact absurd hread (h v)
  · exact hread

/-- R16: the number of a held response is what STATUS reads as. -/
theorem readField_status_of_held (x : Response) (pending : List HostMove) :
    readField .status { rspValid := 1#1, rsp := some x, pending := pending } = .ok (.status (responseStatus x)) := by
  rw [readField_ok_iff, fieldValue_of_held rfl rfl (by decide), responseField_status]

/-- R16: no response has the number 3. -/
theorem responseStatus_ne_three (x : Response) : responseStatus x ≠ 3#2 := by
  match x with
  | .ok _ => exact show 0#2 ≠ 3#2 by decide
  | .err .invalidLength | .err .illegalOp => decide

/-- Settles O34: STATUS is the held response's number, and without a held response it has no value. -/
theorem statusNumbers : Obligations.StatusNumbers := by
  refine ⟨fun p pending => readField_status_of_held (.ok p) pending,
    fun pending => ⟨readField_status_of_held _ pending, readField_status_of_held _ pending⟩, fun s hread => ?three⟩
  case three =>
    rw [readField_ok_iff, fieldValue_of_ne_rspValid (by decide)] at hread
    simp [Option.bind_eq_some_iff, responseField_status, responseStatus_ne_three] at hread

/-! ### The fields of each kind of payload -/

/-- R17: an I32 has OUT_I32 and no other field. -/
theorem payloadField_i32_iff (w : Word) (f : Field) (v : FieldValue) :
    payloadField (.i32 w) f = some v ↔ f = .outI32 ∧ v = .integer (s32 w) := by
  cases f <;> simp [payloadField, eq_comm]

/-- R17: a VEC has OUT_COUNT and one OUT_VEC per element. -/
theorem payloadField_vec_iff (e : List Word) (f : Field) (v : FieldValue) :
    payloadField (.vec e.length e) f = some v ↔
      (f = .outCount ∧ v = .count e.length) ∨
        ∃ (k : Nat) (w : Word), f = .outVec k ∧ e[k]? = some w ∧ v = .integer (s32 w) := by
  cases f with
  | outVec k =>
    cases hk : e[k]? with
    | none => simp [payloadField, hk]
    | some w =>
      have hlt : k < e.length := (List.getElem?_eq_some_iff.1 hk).1
      simp [payloadField, hlt, eq_comm]
  | _ => simp [payloadField, eq_comm]

/-- R17, R22: a BYTES has OUT_BYTE 0 to 3. -/
theorem payloadField_bytes_iff (q : ByteQuad) (f : Field) (v : FieldValue) :
    payloadField (.bytes q) f = some v ↔
      (f = .outByte 0 ∧ v = .byte q.b0) ∨ (f = .outByte 1 ∧ v = .byte q.b1) ∨
        (f = .outByte 2 ∧ v = .byte q.b2) ∨ (f = .outByte 3 ∧ v = .byte q.b3) := by
  match f with
  | .outByte 0 | .outByte 1 | .outByte 2 | .outByte 3 => simp [payloadField, quadByte, eq_comm]
  | .rspValid | .status | .outI32 | .outCount | .outVec _ => simp [payloadField]

/-- R11, R15: in a legal latch that holds a response, RSP_VALID = 1. -/
theorem rspValid_of_held {s : State} {x : Response} (hs : s.LatchWf) (hx : s.rsp = some x) : s.rspValid = 1#1 := by
  obtain ⟨hnone, -⟩ := hs
  have hv : s.rspValid ≠ 0#1 := fun hv => by
    rw [hnone.2 hv] at hx
    cases hx
  revert hv
  generalize s.rspValid = v
  revert v
  decide

/-- Settles O35: by the kind of response held; a legal vector's count is its number of elements. -/
theorem onlyTheHeldKindHasFields : Obligations.OnlyTheHeldKindHasFields := by
  refine fun s x f hs hx hvalid hstatus => ⟨fun v => ?value, readField_of_no_value⟩
  rw [readField_ok_iff, fieldValue_of_held (rspValid_of_held hs hx) hx hvalid]
  obtain ⟨-, hlegal⟩ := hs
  cases x with
  | err c => cases f <;> simp_all [responseField]
  | ok p =>
    have hfield : responseField (.ok p) f = payloadField p f := by
      cases f with
      | status => exact absurd rfl hstatus
      | _ => rfl
    rw [hfield]
    cases p with
    | i32 w => simp [payloadField_i32_iff]
    | vec n e =>
      obtain ⟨rfl, -⟩ := hlegal _ hx
      simp [payloadField_vec_iff]
    | bytes q =>
      obtain ⟨b0, b1, b2, b3⟩ := q
      simp [payloadField_bytes_iff]

end Sys2Proof.Proofs
end

section
/-! PROOFS. Runs and their observation (spec/70_reset_and_hazards.md R76): a run is one part after another, it is stuck at
the first move with no step, and without such a move it answers every request in order (spec/20_memory.md R33). -/

namespace Sys2Proof.Proofs

open Sys2Proof.Machine

/-! ### One step of an observation -/

/-- R76: a step that answers a next state adds the response it wrote. -/
theorem observe_succ_of_next {s t : State} (h : step s = .next t) (n : Nat) :
    observe (n + 1) s = { observe n t with responses := writtenResponse s t ++ (observe n t).responses } := by
  rw [observe, h]

/-- R76: a step that faults leaves the run stuck, with no response. -/
theorem observe_succ_of_fault {s : State} {why : Fault} (h : step s = .fault why) (n : Nat) :
    observe (n + 1) s = { responses := [], final := s, finish := .stuck why } := by
  rw [observe, h]

/-- R39, R76: so does a refused term. -/
theorem observe_succ_of_refused {s : State} {why : Refusal} (h : step s = .refused why) (n : Nat) :
    observe (n + 1) s = { responses := [], final := s, finish := .refused why } := by
  rw [observe, h]

/-- R76: an observation that ended goes on from its final state. -/
theorem observe_add {n : Nat} {s : State} (h : (observe n s).finish = .ended) (k : Nat) :
    observe (n + k) s =
      { observe k (observe n s).final with
        responses := (observe n s).responses ++ (observe k (observe n s).final).responses } := by
  induction n generalizing s with
  | zero => rw [Nat.zero_add]; rfl
  | succ n ih =>
    rw [Nat.add_right_comm]
    cases hstep : step s with
    | next t =>
      rw [observe_succ_of_next hstep] at h ⊢
      rw [observe_succ_of_next hstep, ih h, List.append_assoc]
    | fault why =>
      rw [observe_succ_of_fault hstep] at h
      cases h
    | refused why =>
      rw [observe_succ_of_refused hstep] at h
      cases h

/-! ### A move with no step -/

/-- R33: the next move is taken and performed. -/
theorem step_of_pending {s : State} {m : HostMove} {rest : List HostMove} (h : s.pending = m :: rest) :
    step s = performMove m { s with pending := rest } := by
  obtain ⟨v, x, p⟩ := s
  cases h
  exact step_cons v x m rest

/-- R25, R37: of the selected instructions, exactly the decodes beyond capacity have no response. -/
theorem answer_select_eq_none_iff (op : BitVec 2) (buf : List Byte) (val : Word) :
    answer (select op buf val) = none ↔ (op = 0b00#2 ∨ op = 0b01#2) ∧ Config.maxInBytes < buf.length := by
  obtain rfl | rfl | rfl | rfl := op_cases op <;> simp [select, answer]

/-- Settles O39: the observation goes on from the first `n` steps, and adds nothing but why it stops. -/
theorem stuckRunsPerformNothingMore : Obligations.StuckRunsPerformNothingMore := by
  refine ⟨fun n k s why hended hfault => ?fault, fun n k s r later hended hnext hop hlen => ?oversize⟩
  case fault =>
    rw [Nat.add_assoc, Nat.add_comm 1, observe_add hended, observe_succ_of_fault hfault, List.append_nil]
  case oversize =>
    rw [Nat.add_assoc, Nat.add_comm 1, observe_add hended]
    have hnone := (answer_select_eq_none_iff r.op r.buf r.val).2 ⟨hop, hlen⟩
    have hstep := step_of_pending hnext
    rw [performMove] at hstep
    by_cases hr : r.WellFormed
    · rw [performRequest_of_wellFormed hr, exec_of_answer_eq_none hnone] at hstep
      rw [observe_succ_of_fault hstep, List.append_nil, if_pos hr]
    · rw [performRequest_of_not_wellFormed hr] at hstep
      rw [observe_succ_of_refused hstep, List.append_nil, if_neg hr]

/-! ### Moves that have a step -/

/-- The response to a request. A request that has no step has none (R25), and the value here is then of no account. -/
def responseTo (r : Request) : Response := (answer (select r.op r.buf r.val)).getD (.err .illegalOp)

/-- R25, R72: the instruction of an accepted request has a response. -/
theorem answer_select_of_accepted {r : Request} (h : RequestAccepted r) :
    answer (select r.op r.buf r.val) = some (responseTo r) := by
  obtain ⟨-, hcap⟩ := h
  have hsome : answer (select r.op r.buf r.val) ≠ none := fun hnone => by
    obtain ⟨hop, hlt⟩ := (answer_select_eq_none_iff ..).1 hnone
    exact absurd (hcap hop) (not_le.2 hlt)
  obtain ⟨x, hx⟩ := Option.ne_none_iff_exists'.1 hsome
  rw [responseTo, hx, Option.getD_some]

/-- R72: an accepted request writes its response. -/
theorem performRequest_of_accepted {r : Request} (h : RequestAccepted r) (s : State) :
    performRequest r s = .next (writeLatch (responseTo r) s) := by
  rw [performRequest_of_wellFormed h.1, exec_of_answer_eq_some (answer_select_of_accepted h)]

/-- R30: a read sees the latch, and not the moves to come. -/
theorem readField_pending_irrel (f : Field) (v : BitVec 1) (x : Option Response) (p p' : List HostMove) :
    readField f { rspValid := v, rsp := x, pending := p } = readField f { rspValid := v, rsp := x, pending := p' } :=
  rfl

/-- A move that takes the latch `v`, `x` to `v'`, `x'` and, if it is a request, writes its response, whatever moves are
to come. -/
structure MoveTakes (m : HostMove) (v : BitVec 1) (x : Option Response) (v' : BitVec 1) (x' : Option Response) :
    Prop where
  step_eq (p : List HostMove) :
    step { rspValid := v, rsp := x, pending := m :: p } = .next { rspValid := v', rsp := x', pending := p }
  written_eq (p : List HostMove) :
    writtenResponse { rspValid := v, rsp := x, pending := m :: p } { rspValid := v', rsp := x', pending := p } =
      (requestsOf [m]).map responseTo

theorem moveTakes_request {r : Request} (h : RequestAccepted r) (v : BitVec 1) (x : Option Response) :
    MoveTakes (.request r) v x 1#1 (some (responseTo r)) :=
  ⟨fun _ => performRequest_of_accepted h _, fun _ => rfl⟩

theorem moveTakes_reset (v : BitVec 1) (x : Option Response) : MoveTakes .reset v x 0#1 none :=
  ⟨fun _ => rfl, fun _ => rfl⟩

theorem moveTakes_read {f : Field} {v : BitVec 1} {x : Option Response} {p : List HostMove} {w : FieldValue}
    (h : readField f { rspValid := v, rsp := x, pending := p } = .ok w) : MoveTakes (.read f) v x v x :=
  ⟨fun p' => performRead_of_value ((readField_pending_irrel f v x p' p).trans h), fun _ => rfl⟩

/-- One such move at the front of a run. -/
theorem MoveTakes.observe_succ {m : HostMove} {v v' : BitVec 1} {x x' : Option Response}
    (h : MoveTakes m v x v' x') (n : Nat) (p : List HostMove) :
    observe (n + 1) { rspValid := v, rsp := x, pending := m :: p } =
      { observe n { rspValid := v', rsp := x', pending := p } with
        responses := (requestsOf [m]).map responseTo ++
          (observe n { rspValid := v', rsp := x', pending := p }).responses } := by
  rw [observe_succ_of_next (h.step_eq p), h.written_eq p]

/-- One such move alone: its latch is the run's final one. -/
theorem MoveTakes.observe_one {m : HostMove} {v v' : BitVec 1} {x x' : Option Response} (h : MoveTakes m v x v' x') :
    (observe 1 { rspValid := v, rsp := x, pending := [m] }).final = { rspValid := v', rsp := x', pending := [] } := by
  rw [h.observe_succ 0 []]
  rfl

/-- The first of the moves that have a step is an accepted request, a read of a field with a value, or a reset. -/
theorem exists_moveTakes {v : BitVec 1} {x : Option Response} {m : HostMove} {ms : List HostMove}
    (h : EveryMoveHasAStep v x (m :: ms)) : ∃ v' x', MoveTakes m v x v' x' := by
  obtain ⟨haccepted, hread⟩ := h
  cases m with
  | request r => exact ⟨_, _, moveTakes_request (haccepted r List.mem_cons_self) v x⟩
  | read f =>
    obtain ⟨w, hw⟩ := hread [] f ms rfl
    exact ⟨_, _, moveTakes_read hw⟩
  | reset => exact ⟨_, _, moveTakes_reset v x⟩

/-- The later moves have a step from the latch the first one leaves. -/
theorem everyMoveHasAStep_tail {v v' : BitVec 1} {x x' : Option Response} {m : HostMove} {ms : List HostMove}
    (hm : MoveTakes m v x v' x') (h : EveryMoveHasAStep v x (m :: ms)) : EveryMoveHasAStep v' x' ms := by
  obtain ⟨haccepted, hread⟩ := h
  refine ⟨fun r hr => haccepted r (List.mem_cons_of_mem m hr), fun before f later hms => ?_⟩
  obtain ⟨w, hw⟩ := hread (m :: before) f later (by rw [hms]; rfl)
  have hrun : run { rspValid := v, rsp := x, pending := m :: before } = _ := hm.observe_succ before.length before
  rw [hrun] at hw
  exact ⟨w, hw⟩

/-- The requests of a list of moves are those of its first move and those of the others. -/
theorem requestsOf_cons (m : HostMove) (ms : List HostMove) : requestsOf (m :: ms) = requestsOf [m] ++ requestsOf ms := by
  cases m <;> rfl

/-- R33, R76: moves that have a step take the latch somewhere, writing each request's response in order, and the run goes
on from there with whatever moves come later. -/
theorem observe_moves {v : BitVec 1} {x : Option Response} {ms : List HostMove} (h : EveryMoveHasAStep v x ms) :
    ∃ v' x', ∀ (later : List HostMove) (k : Nat),
      observe (ms.length + k) { rspValid := v, rsp := x, pending := ms ++ later } =
        { observe k { rspValid := v', rsp := x', pending := later } with
          responses := (requestsOf ms).map responseTo ++
            (observe k { rspValid := v', rsp := x', pending := later }).responses } := by
  induction ms generalizing v x with
  | nil => exact ⟨v, x, fun later k => by rw [List.length_nil, Nat.zero_add]; rfl⟩
  | cons m ms ih =>
    obtain ⟨v₁, x₁, hm⟩ := exists_moveTakes h
    obtain ⟨v', x', hms⟩ := ih (everyMoveHasAStep_tail hm h)
    refine ⟨v', x', fun later k => ?_⟩
    rw [List.length_cons, Nat.add_right_comm, List.cons_append, hm.observe_succ, hms, requestsOf_cons m ms,
      List.map_append, List.append_assoc]

/-- Settles O38: the run of the moves is known with every move that may follow it, and the last clauses are about one
more move. -/
theorem runsAnswerEachRequestInOrder : Obligations.RunsAnswerEachRequestInOrder := by
  refine ⟨responseTo, fun v x ms hms => ?_⟩
  obtain ⟨v', x', hobserve⟩ := observe_moves hms
  have hrun : run { rspValid := v, rsp := x, pending := ms } =
      { responses := (requestsOf ms).map responseTo, final := { rspValid := v', rsp := x', pending := [] },
        finish := .ended } := by
    simpa [run, observe] using hobserve [] 0
  have hlast {m : HostMove} {v₁ : BitVec 1} {x₁ : Option Response} (hm : MoveTakes m v' x' v₁ x₁) :
      (run { rspValid := v, rsp := x, pending := ms ++ [m] }).final =
        { rspValid := v₁, rsp := x₁, pending := [] } := by
    rw [run, List.length_append, List.length_singleton, hobserve, hm.observe_one]
  rw [hrun]
  exact ⟨rfl, rfl, rfl, fun r hr => hlast (moveTakes_request hr v' x'), hlast (moveTakes_reset v' x'),
    fun g w hread => hlast (moveTakes_read hread)⟩

end Sys2Proof.Proofs
end

section
/-! PROOFS. The assembler's lines (spec/30_encoding.md R45). -/

namespace Sys2Proof.Proofs

open Sys2Proof.Machine

/-- R41, R45: a decimal literal of the range is its integer's pattern. -/
theorem literal?_decimal {v : Int} (hlo : -2 ^ 31 ≤ v) (hhi : v < 2 ^ 31) : literal? (.decimal v) = some (u32 v) :=
  if_pos (decide_eq_true ⟨hlo, hhi⟩)

/-- R45: any other decimal literal is rejected. -/
theorem literal?_decimal_out_of_range {v : Int} (h : v < -2 ^ 31 ∨ 2 ^ 31 ≤ v) : literal? (.decimal v) = none :=
  if_neg (by simp only [IntLiteral.wellFormed, decide_eq_true_eq]; omega)

/-- R45: a `0x` literal is the pattern it writes out. -/
theorem literal?_pattern (w : Word) : literal? (.pattern w) = some w := rfl

/-- R45: a line but `reset` stands for its request, if LEN can count the request's BUF (R39). -/
theorem assemble_of_ne_reset {l : AsmLine} (hl : l ≠ .reset) :
    assemble l = (lineRequest l).bind fun r => if r.len < 2 ^ 32 then some (.request r) else none := by
  cases l with
  | reset => exact absurd rfl hl
  | _ => rfl

/-- R45: a line stands for its request. -/
theorem assemble_eq_some {l : AsmLine} {r : Request} (h : lineRequest l = some r) (hr : r.WellFormed) :
    assemble l = some (.request r) := by
  have hl : l ≠ .reset := by
    rintro rfl
    cases h
  rw [assemble_of_ne_reset hl, h, Option.bind_some, if_pos hr]

/-- R39, R45: a line but `reset` is rejected if it stands for no request that LEN can count. -/
theorem assemble_eq_none {l : AsmLine} (hl : l ≠ .reset) (h : ∀ r, lineRequest l = some r → ¬ r.WellFormed) :
    assemble l = none := by
  rw [assemble_of_ne_reset hl]
  cases hr : lineRequest l with
  | none => rfl
  | some r => exact if_neg (h r hr)

/-- R45: the request of an encode line, by its literal. -/
theorem lineRequest_encodeI32 {v : IntLiteral} {w : Word} (h : literal? v = some w) :
    lineRequest (.encodeI32 v) = some { op := 0b10#2, buf := [], val := w } := by
  rw [lineRequest, h, Option.map_some]

/-- R45: the request of a `.reserved` line, by its literal. -/
theorem lineRequest_reserved {v : IntLiteral} {w : Word} (h : literal? v = some w) (bytes : List Byte) :
    lineRequest (.reserved bytes v) = some { op := 0b11#2, buf := bytes, val := w } := by
  rw [lineRequest, h, Option.map_some]

/-- R45: without a literal, an encode line and a `.reserved` line stand for no request. -/
theorem lineRequest_of_no_literal {v : IntLiteral} (h : literal? v = none) (bytes : List Byte) :
    lineRequest (.encodeI32 v) = none ∧ lineRequest (.reserved bytes v) = none := by
  constructor <;> rw [lineRequest, h, Option.map_none]

/-- R45: the BUF of a line that lists bytes is the bytes listed. -/
theorem lineRequest_reserved_buf {bytes : List Byte} {v : IntLiteral} {r : Request}
    (h : lineRequest (.reserved bytes v) = some r) : r.buf = bytes := by
  obtain ⟨w, -, rfl⟩ := Option.map_eq_some_iff.1 h
  rfl

/-- Settles O8: by the request of each line, its literal's pattern and the length of its list. -/
theorem assemblerLinesAreCanonical : Obligations.AssemblerLinesAreCanonical := by
  refine ⟨fun bytes hlen => ⟨assemble_eq_some rfl hlen, assemble_eq_some rfl hlen, fun v hlo hhi => ?decimal⟩,
    fun bytes w hlen => ?pattern, fun bytes v hv => ?outOfRange, fun bytes v hlen => ?overlong, rfl⟩
  case decimal =>
    have hv := literal?_decimal hlo hhi
    exact ⟨u32 v, s32_u32 hlo hhi, assemble_eq_some (lineRequest_encodeI32 hv) (Nat.two_pow_pos 32),
      assemble_eq_some (lineRequest_reserved hv bytes) hlen⟩
  case pattern =>
    exact ⟨assemble_eq_some (lineRequest_encodeI32 (literal?_pattern w)) (Nat.two_pow_pos 32),
      assemble_eq_some (lineRequest_reserved (literal?_pattern w) bytes) hlen⟩
  case outOfRange =>
    obtain ⟨hencode, hreserved⟩ := lineRequest_of_no_literal (literal?_decimal_out_of_range hv) bytes
    exact ⟨assemble_eq_none nofun (by simp [hencode]), assemble_eq_none nofun (by simp [hreserved])⟩
  case overlong =>
    have hbuf {r : Request} (hr : r.buf = bytes) : ¬ r.WellFormed := by
      rw [Request.WellFormed, Request.len, hr]
      exact not_lt.2 hlen
    exact ⟨assemble_eq_none nofun fun r hr => hbuf (by cases hr; rfl),
      assemble_eq_none nofun fun r hr => hbuf (by cases hr; rfl),
      assemble_eq_none nofun fun r hr => hbuf (lineRequest_reserved_buf hr)⟩

end Sys2Proof.Proofs
end
